-- ==== Sys2Proof/Word.lean ====
section
/-! DEFINITION. The word types: a byte of memory and a 32-bit register or command word (spec 00_scope.md R5). -/

namespace Sys2Proof

/-- One byte of memory (20_memory.md R50: a byte holds 8 bits). -/
abbrev Byte := BitVec 8

/-- A register or a command word: `REG_W` = 32 bits (00_scope.md R5). -/
abbrev Word := BitVec 32

end Sys2Proof
end

