-- ==== Sys2Proof/Config.lean ====
section
/-! DEFINITION. The parameters of 00_scope.md R5, with the values its table gives.

Two rows of that table stand elsewhere. `Mapped` (R60) is plain data of the state, `State.unmapped`, so that it can be
any set of addresses and the model still evaluates (assumption log 5). The TransformSize table, whose length is
`TABLE_LEN`, is the replaceable constant `Sys2Proof.Machine.catalog` (R130, assumption log 8).
This spec leaves no undefined value after which the machine goes on, so no free value is declared here. -/

namespace Sys2Proof.Config

/-- `REG_W`: the width of every register, of the command word and of a register port access (R5, R33). -/
def regBits : Nat := 32

/-- `ADDR_W`: the width of a byte address (R5). -/
def addrBits : Nat := 32

/-- The number of byte addresses; address arithmetic is modulo this (20_memory.md R50). -/
def addrSpace : Nat := 2 ^ addrBits

/-- `TXS_W`: the width of the size index field of a command (R5, R74). -/
def txsBits : Nat := 8

/-- `ALPHA_W`: the width of the signed AlphaQ3 immediate (R5, R75). -/
def alphaBits : Nat := 16

/-- `BD_W`: the width of the bit-depth field `BD.DEPTH` (R5, R32). -/
def bdBits : Nat := 8

/-- `Q3_STRIDE`: the row stride of the Q3 buffer, in elements (R5, R54). -/
def q3Stride : Nat := 32

/-- `Q3_SHIFT`: a Q3 element is the value times `2 ^ q3Shift` (R5). -/
def q3Shift : Nat := 3

/-- `MAX_DIM`: the largest width and the largest height any kernel computes (R5, R131). -/
def maxDim : Nat := 32

/-- `MIN_DIM`: the smallest width and height (R5). -/
def minDim : Nat := 4

/-- `PRED_ROUND_BITS`: the shift of the scaled product (R5, R120). -/
def predRoundBits : Nat := 6

end Sys2Proof.Config
end

