-- ==== Sys2Proof/Machine/Narrow.lean ====
section
/-! DEFINITION. The notation of 00_scope.md R6 to R8: slices, the narrowing functions, clip. Every value without a
type is a mathematical integer; these functions are the only places where one is narrowed. -/

namespace Sys2Proof.Machine

/-- `v[hi:lo]` read as an unsigned integer (R6). -/
def slice (v : Word) (hi lo : Nat) : Nat := (v.toNat >>> lo) % 2 ^ (hi + 1 - lo)

/-- `zext_N(v) = v mod 2^N` (R7). -/
def zext (n : Nat) (v : Int) : Nat := (v % (2 ^ n : Int)).toNat

/-- `sext_N(v)`: the low `N` bits of `v` read as two's complement (R7). -/
def sext (n : Nat) (v : Int) : Int :=
  let u := v % (2 ^ n : Int)
  if u < (2 ^ (n - 1) : Int) then u else u - (2 ^ n : Int)

/-- `Clip(lo, hi, v) = max(lo, min(hi, v))` (R8). -/
def clip (lo hi v : Int) : Int := max lo (min hi v)

end Sys2Proof.Machine
end

