-- ==== Sys2Proof/Syntax.lean ====
section
/-! DEFINITION. The eleven commands as syntax: one constructor per row of spec/opcode_table.json (30_encoding.md R76).

The two operand fields are kept as the integers the spec makes of them: `txs`, the TransformSize index, unsigned
(R74), and `alpha`, the signed AlphaQ3 (R75). `Instr.wf` (WellFormed.lean) says which values a field can hold. -/

namespace Sys2Proof

/-- A command of the block (00_scope.md R2). -/
inductive Instr where
  /-- `SUBAVG`, the dc_remover (40_dc_remover.md R90). -/
  | subavg (txs : Nat)
  /-- `SUBS.420.LBD` (41_subsampler.md R101). -/
  | subs420lbd (txs : Nat)
  /-- `SUBS.422.LBD` (R103). -/
  | subs422lbd (txs : Nat)
  /-- `SUBS.444.LBD` (R105). -/
  | subs444lbd (txs : Nat)
  /-- `SUBS.420.HBD` (R102). -/
  | subs420hbd (txs : Nat)
  /-- `SUBS.422.HBD` (R104). -/
  | subs422hbd (txs : Nat)
  /-- `SUBS.444.HBD` (R106). -/
  | subs444hbd (txs : Nat)
  /-- `PRED.LBD` (42_fixed_point_scaler.md R122). -/
  | predLbd (txs : Nat) (alpha : Int)
  /-- `PRED.HBD` (R123). -/
  | predHbd (txs : Nat) (alpha : Int)
  /-- `CMP.E8` (44_parity_comparator.md R140). -/
  | cmpE8 (txs : Nat)
  /-- `CMP.E16` (R141). -/
  | cmpE16 (txs : Nat)
  deriving DecidableEq, Repr

/-- The `txs` operand, which every command has (30_encoding.md R74). -/
def Instr.txs : Instr → Nat
  | .subavg t => t
  | .subs420lbd t => t
  | .subs422lbd t => t
  | .subs444lbd t => t
  | .subs420hbd t => t
  | .subs422hbd t => t
  | .subs444hbd t => t
  | .predLbd t _ => t
  | .predHbd t _ => t
  | .cmpE8 t => t
  | .cmpE16 t => t

/-- The `alpha` operand; 0 for every command but `PRED`, whose field must be 0 (30_encoding.md R75). -/
def Instr.alpha : Instr → Int
  | .subavg _ => 0
  | .subs420lbd _ => 0
  | .subs422lbd _ => 0
  | .subs444lbd _ => 0
  | .subs420hbd _ => 0
  | .subs422hbd _ => 0
  | .subs444hbd _ => 0
  | .predLbd _ a => a
  | .predHbd _ a => a
  | .cmpE8 _ => 0
  | .cmpE16 _ => 0

end Sys2Proof
end

