-- ==== Sys2Proof/WellFormed.lean ====
section
/-! DEFINITION. Which operand values a command word can carry (30_encoding.md R74, R75). -/

namespace Sys2Proof

/-- `txs` fits its unsigned 8-bit field (R74: all 256 values are legal). -/
def Instr.txsFits (i : Instr) : Bool := decide (i.txs < 2 ^ Config.txsBits)

/-- `alpha` fits its signed 16-bit field (R75: all 65536 values are legal). -/
def Instr.alphaFits (i : Instr) : Bool :=
  decide (-(2 ^ (Config.alphaBits - 1) : Int) ≤ i.alpha) && decide (i.alpha < (2 ^ (Config.alphaBits - 1) : Int))

/-- A command that some command word spells. -/
def Instr.wf (i : Instr) : Bool := i.txsFits && i.alphaFits

end Sys2Proof
end

