-- ==== Sys2Proof/Decode.lean ====
section
/-! DEFINITION. The command word (30_encoding.md R70 to R79): decoding, total on every 32-bit word and rejecting by
name, and the encoder written from the same table. -/

namespace Sys2Proof

/-- Why a word spells no command (R78). The order of the list is the order in which a reason is looked for. -/
inductive DecodeError where
  /-- `op` is 0 or 5 to 15 (R71). -/
  | op
  /-- Bit 7 is set (R70). -/
  | z
  /-- `SUBS` with `fmt` 3, or another operation with `fmt` not 0 (R72). -/
  | fmt
  /-- `SUBAVG` with `hbd` 1 (R73). -/
  | hbd
  /-- Not `PRED`, and bits 31:16 are not 0 (R75). -/
  | alpha
  deriving DecidableEq, Repr

/-- The field `op`, bits 3:0 (R70). -/
def opField (c : Word) : Nat := Machine.slice c 3 0
/-- The field `fmt`, bits 5:4 (R70). -/
def fmtField (c : Word) : Nat := Machine.slice c 5 4
/-- The field `hbd`, bit 6 (R70). -/
def hbdField (c : Word) : Nat := Machine.slice c 6 6
/-- The field `z`, bit 7 (R70). -/
def zField (c : Word) : Nat := Machine.slice c 7 7
/-- The field `txs`, bits 15:8, zero-extended (R70, R74). -/
def txsField (c : Word) : Nat := Machine.slice c 15 8
/-- The field `alpha`, bits 31:16, sign-extended (R70, R75). -/
def alphaField (c : Word) : Int := Machine.sext Config.alphaBits (Machine.slice c 31 16)

/-- A row of the opcode map of R76: its mask, its match, and the command its operand fields make. -/
structure OpRow where
  mask : Word
  pattern : Word
  build : Nat → Int → Instr

/-- The mask of a row whose `alpha` field must be 0 (R76). -/
def maskFixed : Word := 0xFFFF00FF#32
/-- The mask of a row with an `alpha` operand (R76). -/
def maskAlpha : Word := 0x000000FF#32

/-- The opcode map, row by row as R76 lists it. -/
def opRows : List OpRow :=
  [ ⟨maskFixed, 0x00000001#32, fun t _ => .subavg t⟩,
    ⟨maskFixed, 0x00000002#32, fun t _ => .subs420lbd t⟩,
    ⟨maskFixed, 0x00000012#32, fun t _ => .subs422lbd t⟩,
    ⟨maskFixed, 0x00000022#32, fun t _ => .subs444lbd t⟩,
    ⟨maskFixed, 0x00000042#32, fun t _ => .subs420hbd t⟩,
    ⟨maskFixed, 0x00000052#32, fun t _ => .subs422hbd t⟩,
    ⟨maskFixed, 0x00000062#32, fun t _ => .subs444hbd t⟩,
    ⟨maskAlpha, 0x00000003#32, fun t a => .predLbd t a⟩,
    ⟨maskAlpha, 0x00000043#32, fun t a => .predHbd t a⟩,
    ⟨maskFixed, 0x00000004#32, fun t _ => .cmpE8 t⟩,
    ⟨maskFixed, 0x00000044#32, fun t _ => .cmpE16 t⟩ ]

/-- `c` is the command of a row exactly when `c & mask = match` (R76). -/
def OpRow.covers (r : OpRow) (c : Word) : Bool := decide (c &&& r.mask = r.pattern)

/-- The name of what is wrong with a word that matches no row (R78). -/
def illegalReason (c : Word) : DecodeError :=
  if opField c = 0 ∨ 5 ≤ opField c then .op
  else if zField c ≠ 0 then .z
  else if opField c = 2 ∧ fmtField c = 3 then .fmt
  else if opField c ≠ 2 ∧ fmtField c ≠ 0 then .fmt
  else if opField c = 1 ∧ hbdField c = 1 then .hbd
  else .alpha

/-- Decoding depends on the 32-bit word alone (R79): the row of R76 that covers it, or the reason why none does. -/
def decode (c : Word) : Except DecodeError Instr :=
  match opRows.find? (fun r => r.covers c) with
  | some r => .ok (r.build (txsField c) (alphaField c))
  | none => .error (illegalReason c)

/-- The `match` value of a command's row (R76). -/
def Instr.pattern : Instr → Word
  | .subavg _ => 0x00000001#32
  | .subs420lbd _ => 0x00000002#32
  | .subs422lbd _ => 0x00000012#32
  | .subs444lbd _ => 0x00000022#32
  | .subs420hbd _ => 0x00000042#32
  | .subs422hbd _ => 0x00000052#32
  | .subs444hbd _ => 0x00000062#32
  | .predLbd _ _ => 0x00000003#32
  | .predHbd _ _ => 0x00000043#32
  | .cmpE8 _ => 0x00000004#32
  | .cmpE16 _ => 0x00000044#32

/-- The word of a command: `match | txs << 8 | (alpha mod 2^16) << 16` (R76, R80). -/
def encode (i : Instr) : Word :=
  i.pattern ||| (BitVec.ofNat 32 (Machine.zext Config.txsBits i.txs) <<< 8)
    ||| (BitVec.ofNat 32 (Machine.zext Config.alphaBits i.alpha) <<< 16)

/-- The command the decoder reads from a word given as the number `w` of `nbits` bits, numbered as
spec/opcode_table.json numbers them (bits above `nbits` are 0); `none` where the decoder refuses. -/
def decodeTableWord (nbits w : Nat) : Option Instr :=
  match decode (BitVec.ofNat 32 (w % 2 ^ nbits)) with
  | .ok i => some i
  | .error _ => none

end Sys2Proof
end

