-- ==== Sys2Proof/Machine/State.lean ====
section
/-! DEFINITION. The machine's state as plain data (spec 10_state.md), the ways a step can end, and the state after
reset (10_state.md R38). -/

namespace Sys2Proof.Machine

/-- The reasons the machine itself would stop with. There is none: the two faults of the spec (60_exceptions.md R151,
R152) are taken by writing `STATUS` and `FINFO` (R154), which is a next state, and the host's actions after a fault
still happen (R155). Assumption log 13; safe. -/
inductive Fault where
  deriving DecidableEq, Repr

/-- Why the model gives a step no outcome: the `refuse(reason)` of 60_exceptions.md R164. Every refusal is safe: the
model claims nothing where the spec gives no meaning. -/
inductive Refusal where
  /-- An instruction without a meaning yet; raised by no arm of this model. Safe. -/
  | notModelled (mnemonic : String)
  /-- `refuse(range)`: raised by `SUBAVG` when a difference leaves the signed 16-bit range (40_dc_remover.md R93) and by
  `SUBS.*.HBD` when a luma sample read is above 4095 (41_subsampler.md R107). Safe. -/
  | range
  /-- `refuse(overlap)`: raised by `SUBS.*` and `PRED.*` when the write region meets another read region (20_memory.md
  R58), and by `PRED.*` when the written plane folds onto itself (R59). Safe. -/
  | overlap
  /-- `refuse(unmapped)`: raised by every command that touches a byte where no memory is (20_memory.md R60), and by a
  host access to such a byte (assumption log 15). Safe. -/
  | unmapped
  /-- A register port access that is not a 32-bit access at a multiple of 4 (10_state.md R33,
  93_implementation_defined.md U9). Safe. -/
  | portShape
  deriving DecidableEq, Repr

/-- What the host can do to the block, one action at a time (30_encoding.md R81, 10_state.md R33, R36,
70_reset_and_hazards.md R170, R177). -/
inductive HostAction where
  /-- A write on the register port: the access's width in bits, its byte offset, the value. -/
  | portWrite (bits offset : Nat) (value : Word)
  /-- A read on the register port: the access's width in bits and its byte offset. -/
  | portRead (bits offset : Nat)
  /-- The host stores one byte of memory. -/
  | memWrite (addr : Word) (value : Byte)
  /-- The host reads one byte of memory. -/
  | memRead (addr : Word)
  /-- The external reset input (R170). -/
  | reset
  deriving DecidableEq, Repr

/-- The byte addresses from `base` up to, not including, `base + size`. -/
structure AddrRange where
  base : Nat
  size : Nat
  deriving DecidableEq, Repr

/-- Memory as a list of (address, byte) pairs; an address that is not listed reads as `Memory.unlisted`. -/
abbrev Memory := List Host.Cell

/-- What a byte that nothing has written reads as. The spec leaves memory after power-up unspecified (10_state.md R38,
93_implementation_defined.md U8). DESIGN CHOICE (assumption log 4), unsafe: a claim about a run from `State.reset` may
lean on it; a claim over every `mem` does not. -/
def Memory.unlisted : Byte := 0#8

/-- No listed byte equals what an unlisted address reads as, and every address is in the space. -/
def Memory.entriesOk (m : Memory) : Bool :=
  m.all fun cell => decide (cell.1 < Config.addrSpace) && decide (cell.2 ≠ Memory.unlisted)

/-- The listed addresses rise strictly. -/
def Memory.rising : Memory → Bool
  | [] => true
  | [_] => true
  | a :: b :: rest => decide (a.1 < b.1) && Memory.rising (b :: rest)

/-- The canonical form of a memory. -/
def Memory.wf (m : Memory) : Bool := m.entriesOk && m.rising

/-- The whole state: the nine registers of 10_state.md R20 to R33 (`CMD` holds no value), the memory (R36), and three
fields that are the model's own (`unmapped`, `pending`, `returned`). -/
structure State where
  /-- `SRC_BASE` (R22). -/
  srcBase : Word
  /-- `SRC_STRIDE`, in elements (R23). -/
  srcStride : Word
  /-- `DST_BASE` (R24). -/
  dstBase : Word
  /-- `DST_STRIDE`, in elements (R25). -/
  dstStride : Word
  /-- `Q3_BASE` (R26). -/
  q3Base : Word
  /-- `STATUS`: `HALT` in bit 0, `CAUSE` in bits 7:4 (R30). -/
  status : Word
  /-- `FINFO` (R31). -/
  finfo : Word
  /-- `BD`: `DEPTH` in bits 7:0 (R32). -/
  bd : Word
  /-- The memory behind the block's memory port (R36). -/
  mem : Memory
  /-- The addresses that hold no caller-owned memory: the parameter `Mapped` of 20_memory.md R60 as data. No step
  changes it (assumption log 5). -/
  unmapped : List AddrRange
  /-- The host actions still to be performed, the next one first (70_reset_and_hazards.md R177; assumption log 1). -/
  pending : List HostAction
  /-- The values the host's reads have returned, the latest first (assumption log 3). -/
  returned : List Word
  deriving DecidableEq, Repr

/-- The block after power-up: every register at the value of R38, the memory holding whatever it holds, on a platform
with the given unmapped ranges, and no host action yet. -/
def State.powerUp (mem : Memory) (unmapped : List AddrRange) : State where
  srcBase := 0#32
  srcStride := 0#32
  dstBase := 0#32
  dstStride := 0#32
  q3Base := 0#32
  status := 0#32
  finfo := 0#32
  bd := 0#32
  mem := mem
  unmapped := unmapped
  pending := []
  returned := []

/-- The machine right after reset (R38): no memory listed, every address mapped (00_scope.md R5's default). -/
def State.reset : State := State.powerUp [] []

end Sys2Proof.Machine
end

