-- ==== Sys2Proof/Machine/Flags.lean ====
section
/-! DEFINITION. The block's only flag-like state, `STATUS.HALT` and `STATUS.CAUSE` (10_state.md R28, R30), and the
field `BD.DEPTH` (R32). No command computes a flag: `STATUS` is written only by taking a fault (R28). -/

namespace Sys2Proof.Machine

/-- The two causes of a fault (60_exceptions.md R150). -/
inductive Cause where
  /-- `PARITY_MISMATCH` (R152). -/
  | parityMismatch
  /-- `ILLEGAL_COMMAND` (R151). -/
  | illegalCommand
  deriving DecidableEq, Repr

/-- The cause codes (10_state.md R30). -/
def Cause.code : Cause → Nat
  | .parityMismatch => 1
  | .illegalCommand => 2

/-- What `STATUS` becomes: `(cause << 4) | 1` (60_exceptions.md R154). -/
def Cause.status (c : Cause) : Word := BitVec.ofNat 32 (c.code <<< 4 ||| 1)

/-- `STATUS.HALT`, bit 0 (10_state.md R30). -/
def State.halted (s : State) : Bool := decide (slice s.status 0 0 = 1)

/-- `STATUS.CAUSE`, bits 7:4 (10_state.md R30). -/
def State.cause (s : State) : Nat := slice s.status 7 4

/-- `BD.DEPTH`, bits 7:0 (10_state.md R32). -/
def State.depth (s : State) : Nat := slice s.bd 7 0

end Sys2Proof.Machine
end

