-- ==== Sys2Proof/Machine/Ops.lean ====
section
/-! DEFINITION. The named operations over memory and registers: the bytes of memory, the element accesses of
20_memory.md R52, taking a fault (60_exceptions.md R154) and reset, the only way out of one (70_reset_and_hazards.md
R170). -/

namespace Sys2Proof.Machine

/-- How a step ends. -/
abbrev Result := Host.Outcome State Fault Refusal

/-! ### The bytes of memory -/

/-- An address on the memory port: taken modulo 2^32 (20_memory.md R50, R52). -/
def wrapAddr (a : Nat) : Nat := a % Config.addrSpace

/-- The byte at an address of the list: the listed one, or what an unlisted address reads as. -/
def Memory.lookup : Memory → Nat → Byte
  | [], _ => Memory.unlisted
  | (k, v) :: rest, a => if k = a then v else Memory.lookup rest a

/-- Every entry for `a` taken out. -/
def Memory.erase (m : Memory) (a : Nat) : Memory := m.filter fun cell => decide (cell.1 ≠ a)

/-- The entry `(a, v)` put in at its place in the rising order. -/
def Memory.insert : Memory → Nat → Byte → Memory
  | [], a, v => [(a, v)]
  | (k, x) :: rest, a, v => if a < k then (a, v) :: (k, x) :: rest else (k, x) :: Memory.insert rest a v

/-- `byte[a mod 2^32]` (20_memory.md R52). -/
def Memory.byte (m : Memory) (a : Nat) : Byte := m.lookup (wrapAddr a)

/-- `byte[a mod 2^32] <- v` (20_memory.md R52); writing what an unlisted address reads as takes the entry out, so the
canonical form is kept. -/
def Memory.setByte (m : Memory) (a : Nat) (v : Byte) : Memory :=
  if v = Memory.unlisted then m.erase (wrapAddr a) else (m.erase (wrapAddr a)).insert (wrapAddr a) v

/-! ### The elements -/

/-- The two element sizes (20_memory.md R56). -/
inductive ElemSize where
  /-- 1 byte: `LBD` samples and `CMP.E8` elements. -/
  | one
  /-- 2 bytes: `HBD` samples, Q3 elements and `CMP.E16` elements. -/
  | two
  deriving DecidableEq, Repr

/-- The size `es` in bytes. -/
def ElemSize.bytes : ElemSize → Nat
  | .one => 1
  | .two => 2

/-- `MemRead(a, n)`: little-endian, unsigned (20_memory.md R51, R52). -/
def Memory.load (m : Memory) (es : ElemSize) (a : Nat) : Nat :=
  match es with
  | .one => (m.byte a).toNat
  | .two => (m.byte a).toNat + 256 * (m.byte (a + 1)).toNat

/-- `Load16s(a)`: a signed 16-bit Q3 element (20_memory.md R52). -/
def Memory.loadSigned (m : Memory) (a : Nat) : Int := sext 16 (m.load .two a)

/-- `MemWrite(a, n, v)`: the low `8n` bits of `v`, little-endian (20_memory.md R51, R52). -/
def Memory.store (m : Memory) (es : ElemSize) (a v : Nat) : Memory :=
  match es with
  | .one => m.setByte a (BitVec.ofNat 8 v)
  | .two => (m.setByte a (BitVec.ofNat 8 v)).setByte (a + 1) (BitVec.ofNat 8 (v / 256))

/-- `Store8(a, v)` and `Store16(a, v)`: the value in `8n` bits, a negative one in two's complement (20_memory.md R52). -/
def Memory.storeValue (m : Memory) (es : ElemSize) (a : Nat) (v : Int) : Memory :=
  m.store es a (zext (8 * es.bytes) v)

/-! ### The platform -/

/-- `Mapped(a)` (20_memory.md R60): no listed range holds the address. -/
def State.mapped (s : State) (a : Nat) : Bool :=
  s.unmapped.all fun u => !(decide (u.base ≤ a) && decide (a < u.base + u.size))

/-! ### Faults and reset -/

/-- `raise Fault(cause, info)` (60_exceptions.md R154): `FINFO` and `STATUS` are written, nothing else changes. Nothing
is saved and control goes nowhere; there is no return from it (R155). -/
def takeFault (s : State) (cause : Cause) (info : Word) : State :=
  { s with finfo := info, status := cause.status }

/-- Reset as an action on a state (70_reset_and_hazards.md R170): every register at R38's value, memory untouched. The
platform, the host's remaining actions and what it has read are not the block's to change (assumption log 14). -/
def State.applyReset (s : State) : State :=
  { State.powerUp s.mem s.unmapped with pending := s.pending, returned := s.returned }

end Sys2Proof.Machine
end

