-- ==== Sys2Proof/Machine/Operands.lean ====
section
/-! DEFINITION. The operand forms: planes and their addressing (20_memory.md R53, R54), the block of a command, the
regions it touches (R57), the refuse conditions over regions (R58 to R60), and storing a block. -/

namespace Sys2Proof.Machine

/-- A plane: base address, row stride in elements, element size (20_memory.md R53). -/
structure Plane where
  base : Word
  stride : Word
  size : ElemSize
  deriving DecidableEq, Repr

/-- `Addr(base, stride, es, r, c) = (base + (r * stride + c) * es) mod 2^32` (20_memory.md R53). -/
def Plane.addr (p : Plane) (r c : Nat) : Nat :=
  wrapAddr (p.base.toNat + (r * p.stride.toNat + c) * p.size.bytes)

/-- The source plane: the luma input, or twin buffer `A` (10_state.md R22, R23). -/
def State.srcPlane (s : State) (size : ElemSize) : Plane := ⟨s.srcBase, s.srcStride, size⟩

/-- The destination plane, or twin buffer `B` (10_state.md R24, R25). -/
def State.dstPlane (s : State) (size : ElemSize) : Plane := ⟨s.dstBase, s.dstStride, size⟩

/-- The Q3 buffer: stride 32 elements of 2 bytes (20_memory.md R54). -/
def State.q3Plane (s : State) : Plane := ⟨s.q3Base, BitVec.ofNat 32 Config.q3Stride, .two⟩

/-- The positions of a `w` by `h` block in raster order: row 0 first, column 0 first within a row
(44_parity_comparator.md R142). -/
def positions (w h : Nat) : List (Nat × Nat) :=
  (List.range h).flatMap fun r => (List.range w).map fun c => (r, c)

/-- A plane accessed over a block of `w` columns and `h` rows. -/
structure Access where
  plane : Plane
  w : Nat
  h : Nat
  deriving DecidableEq, Repr

/-- The byte addresses of the element at (r, c) of a plane. -/
def Plane.elemBytes (p : Plane) (r c : Nat) : List Nat :=
  (List.range p.size.bytes).map fun k => wrapAddr (p.addr r c + k)

/-- `Region(base, stride, es, w, h)`, element by element in raster order (20_memory.md R57). -/
def Access.region (x : Access) : List Nat :=
  (positions x.w x.h).flatMap fun p => x.plane.elemBytes p.1 p.2

/-- Two regions share a byte (20_memory.md R58). -/
def Access.meets (x y : Access) : Bool := x.region.any fun a => y.region.contains a

/-- Two different elements of the region share a byte (20_memory.md R59); the bytes of one element are distinct, so
this is a repeat in the list of its bytes. -/
def Access.folds (x : Access) : Bool := !decide x.region.Nodup

/-- Every byte of the region is mapped (20_memory.md R60). -/
def State.mappedAll (s : State) (x : Access) : Bool := x.region.all s.mapped

/-- The element at (r, c) of a plane, unsigned (20_memory.md R52: `Load8`, `Load16u`). -/
def Plane.get (p : Plane) (m : Memory) (r c : Nat) : Nat := m.load p.size (p.addr r c)

/-- The Q3 element at (r, c), signed (20_memory.md R52, R54: `Load16s(Q3Addr(r, c))`). -/
def Plane.getSigned (p : Plane) (m : Memory) (r c : Nat) : Int := m.loadSigned (p.addr r c)

/-- Store `val r c` at every position of a list of positions of a plane. -/
def storeAt (p : Plane) (val : Nat → Nat → Int) (ps : List (Nat × Nat)) (m : Memory) : Memory :=
  ps.foldl (fun m q => m.storeValue p.size (p.addr q.1 q.2) (val q.1 q.2)) m

/-- Store `val r c` at every position of a block. -/
def Access.storeAll (x : Access) (val : Nat → Nat → Int) (m : Memory) : Memory :=
  storeAt x.plane val (positions x.w x.h) m

/-- Steps 4 and 5 of 30_encoding.md R77 for a command that writes `out` and reads the regions `others` besides, storing
`val r c` (computed from the state before the command, 20_memory.md R63 (d)) at every (r, c). The refusals of
60_exceptions.md R164 are judged before any write: `overlap` is the command's own overlap condition, `inRange` its range
condition. Which reason is reported when several hold is the model's choice (assumption log 6). -/
def runWriting (s : State) (out : Access) (others : List Access) (overlap inRange : Bool) (val : Nat → Nat → Int) :
    Result :=
  if !((out :: others).all s.mappedAll) then .refused .unmapped
  else if overlap then .refused .overlap
  else if !inRange then .refused .range
  else .next { s with mem := out.storeAll val s.mem }

end Sys2Proof.Machine
end

