-- ==== Sys2Proof/Machine/SizeDispatch.lean ====
section
/-! DEFINITION. The size_dispatch_mux (spec 43_size_dispatch_mux.md): the TransformSize catalog, `Resolve`, and the
stage of 30_encoding.md R77 that every command passes through. -/

namespace Sys2Proof.Machine

/-- The catalog: (width, height) of each TransformSize, by index (43_size_dispatch_mux.md R130). The order is from
general knowledge, by the spec's own word (G1): PRESUMED, assumption log 8. -/
def catalog : List (Nat × Nat) :=
  [ (4, 4), (8, 8), (16, 16), (32, 32), (64, 64),
    (4, 8), (8, 4), (8, 16), (16, 8), (16, 32), (32, 16), (32, 64), (64, 32),
    (4, 16), (16, 4), (8, 32), (32, 8), (16, 64), (64, 16) ]

/-- What the dispatch selects: a tagged no-op, or a block geometry (R132, R135). -/
inductive Kernel where
  /-- The no-op kernel. -/
  | noOp
  /-- The family's kernel at `w` columns by `h` rows. -/
  | block (w h : Nat)
  deriving DecidableEq, Repr

/-- `Resolve(txs)` (R135): the index reduced modulo the table length (R134), looked up (R130), and the no-op for a size
with a side above 32 (R131, R132). The reduced index is always inside the table (R136 (b)), so the last case is never
reached. -/
def resolve (txs : Nat) : Kernel :=
  match catalog[txs % catalog.length]? with
  | some (w, h) => if w ≤ Config.maxDim ∧ h ≤ Config.maxDim then .block w h else .noOp
  | none => .noOp

/-- 30_encoding.md R77 for a command already decoded: step 1, nothing while `HALT` is 1 (60_exceptions.md R155); step 3,
`Resolve`, where the no-op kernel does nothing (R132); then the command's own refusals and kernel. -/
def runCommand (s : State) (txs : Nat) (kernel : Nat → Nat → Result) : Result :=
  if s.halted then .next s
  else
    match resolve txs with
    | .noOp => .next s
    | .block w h => kernel w h

end Sys2Proof.Machine
end

