-- ==== Sys2Proof/Machine/DcRemover.lean ====
section
/-! DEFINITION. The dc_remover: `SUBAVG` (spec 40_dc_remover.md). -/

namespace Sys2Proof.Machine

/-- The Q3 buffer over a block (20_memory.md R54). -/
def State.q3 (s : State) (w h : Nat) : Access := ⟨s.q3Plane, w, h⟩

/-- `old(r, c)`: the Q3 sample before the command (40_dc_remover.md R90). -/
def State.q3Sample (s : State) (r c : Nat) : Int := s.q3Plane.getSigned s.mem r c

/-- The exact sum of the block's samples (R90, R92). -/
def blockSum (f : Nat → Nat → Int) (w h : Nat) : Int := ((positions w h).map fun p => f p.1 p.2).sum

/-- The rounded mean of a block whose samples sum to `sum`: `(sum + (1 << (n - 1))) >> n` with `n = log2(w * h)`, an
arithmetic shift, the offset added (R90, R91). -/
def roundedMean (sum : Int) (w h : Nat) : Int :=
  let n := (w * h).log2
  (sum + (1 <<< (n - 1) : Nat)) >>> n

/-- `avg` of the block (R90). -/
def State.q3Avg (s : State) (w h : Nat) : Int := roundedMean (blockSum s.q3Sample w h) w h

/-- What a signed 16-bit element can hold (R90, R93). -/
def fitsQ3 (v : Int) : Bool := decide (-32768 ≤ v) && decide (v ≤ 32767)

/-- The kernel of `SUBAVG` at a block whose average is `avg`: each sample minus `avg`, in place (R90); `refuse(range)`
when a difference does not fit (R93). It never refuses for overlap: the update is in place (20_memory.md R58) and the Q3
buffer cannot fold onto itself (R59). -/
def subtractMean (s : State) (w h : Nat) (avg : Int) : Result :=
  runWriting s (s.q3 w h) [] false ((positions w h).all fun p => fitsQ3 (s.q3Sample p.1 p.2 - avg))
    fun r c => s.q3Sample r c - avg

/-- `SUBAVG <size>` (R90). -/
def execSubavg (txs : Nat) (s : State) : Result :=
  runCommand s txs fun w h => subtractMean s w h (s.q3Avg w h)

end Sys2Proof.Machine
end

