-- ==== Sys2Proof/Machine/Subsampler.lean ====
section
/-! DEFINITION. The chroma_from_luma_filter: the six `SUBS` commands (spec 41_subsampler.md). -/

namespace Sys2Proof.Machine

/-- The chroma formats (00_scope.md R11). -/
inductive ChromaFormat where
  /-- 4:2:0. -/
  | f420
  /-- 4:2:2. -/
  | f422
  /-- 4:4:4. -/
  | f444
  deriving DecidableEq, Repr

/-- `sub_x` (41_subsampler.md R100). -/
def ChromaFormat.subX : ChromaFormat → Nat
  | .f420 => 1
  | .f422 => 1
  | .f444 => 0

/-- `sub_y` (R100). -/
def ChromaFormat.subY : ChromaFormat → Nat
  | .f420 => 1
  | .f422 => 0
  | .f444 => 0

/-- The luma region a block of `w` by `h` outputs reads: `w << sub_x` columns by `h << sub_y` rows (R100). -/
def State.luma (s : State) (f : ChromaFormat) (size : ElemSize) (w h : Nat) : Access :=
  ⟨s.srcPlane size, w <<< f.subX, h <<< f.subY⟩

/-- `L(y, x)`, the luma sample as it was before the command (R108). -/
def State.lumaSample (s : State) (size : ElemSize) (y x : Nat) : Int := (s.srcPlane size).get s.mem y x

/-- The Q3 value of output (r, c): the sum of the luma samples that cover it, shifted left (R101 to R106; the sum is
shifted, not an average: 90_conflicts.md C3). -/
def subsampled (f : ChromaFormat) (L : Nat → Nat → Int) (r c : Nat) : Int :=
  match f with
  | .f420 => (L (2 * r) (2 * c) + L (2 * r) (2 * c + 1) + L (2 * r + 1) (2 * c) + L (2 * r + 1) (2 * c + 1)) * 2 ^ 1
  | .f422 => (L r (2 * c) + L r (2 * c + 1)) * 2 ^ 2
  | .f444 => L r c * 2 ^ 3

/-- The largest luma sample of the `HBD` domain (R107). -/
def maxLumaHbd : Int := 4095

/-- No luma sample the command reads is above 4095 (R107): the range condition of the `HBD` commands. -/
def State.lumaInRange (s : State) (f : ChromaFormat) (w h : Nat) : Bool :=
  (positions (s.luma f .two w h).w (s.luma f .two w h).h).all fun p => decide (s.lumaSample .two p.1 p.2 ≤ maxLumaHbd)

/-- The low bit-depth kernel of a format: 1-byte luma samples, never `refuse(range)` (R101, R103, R105, R108);
`refuse(overlap)` when the Q3 write region meets the luma read region (20_memory.md R58). -/
def subsampleLbd (f : ChromaFormat) (s : State) (w h : Nat) : Result :=
  runWriting s (s.q3 w h) [s.luma f .one w h] ((s.q3 w h).meets (s.luma f .one w h)) true (subsampled f (s.lumaSample .one))

/-- The high bit-depth kernel of a format: 2-byte luma samples (R102, R104, R106, R107, R108). -/
def subsampleHbd (f : ChromaFormat) (s : State) (w h : Nat) : Result :=
  runWriting s (s.q3 w h) [s.luma f .two w h] ((s.q3 w h).meets (s.luma f .two w h)) (s.lumaInRange f w h)
    (subsampled f (s.lumaSample .two))

/-- `SUBS.420.LBD <size>` (R101). -/
def execSubs420lbd (txs : Nat) (s : State) : Result := runCommand s txs (subsampleLbd .f420 s)

/-- `SUBS.422.LBD <size>` (R103). -/
def execSubs422lbd (txs : Nat) (s : State) : Result := runCommand s txs (subsampleLbd .f422 s)

/-- `SUBS.444.LBD <size>` (R105). -/
def execSubs444lbd (txs : Nat) (s : State) : Result := runCommand s txs (subsampleLbd .f444 s)

/-- `SUBS.420.HBD <size>` (R102). -/
def execSubs420hbd (txs : Nat) (s : State) : Result := runCommand s txs (subsampleHbd .f420 s)

/-- `SUBS.422.HBD <size>` (R104). -/
def execSubs422hbd (txs : Nat) (s : State) : Result := runCommand s txs (subsampleHbd .f422 s)

/-- `SUBS.444.HBD <size>` (R106). -/
def execSubs444hbd (txs : Nat) (s : State) : Result := runCommand s txs (subsampleHbd .f444 s)

end Sys2Proof.Machine
end

