-- ==== Sys2Proof/Machine/Scaler.lean ====
section
/-! DEFINITION. The fixed_point_scaler: `PRED.LBD` and `PRED.HBD` (spec 42_fixed_point_scaler.md). -/

namespace Sys2Proof.Machine

/-- `RoundSigned6(q)`: `q / 64` to the nearest integer, a tie going away from zero, computed on the magnitude
(42_fixed_point_scaler.md R120). The tie of the non-negative branch is fixed by the spec's symmetry argument (G2,
assumption log 9). -/
def roundSigned6 (q : Int) : Int :=
  if q < 0 then -((-q + (1 <<< (Config.predRoundBits - 1) : Nat)) >>> Config.predRoundBits)
  else (q + (1 <<< (Config.predRoundBits - 1) : Nat)) >>> Config.predRoundBits

/-- `PixMax` of `PRED.LBD` (R121). -/
def pixMaxLbd : Int := 255

/-- `PixMax_HBD(DEPTH)`: any depth but 10 and 12 clips to 8 bits, silently (R121). -/
def pixMaxHbd (depth : Nat) : Int :=
  if depth = 10 then 1023 else if depth = 12 then 4095 else 255

/-- The destination plane over a block. -/
def State.dst (s : State) (size : ElemSize) (w h : Nat) : Access := ⟨s.dstPlane size, w, h⟩

/-- The destination sample before the command (R122, R123). -/
def State.dstSample (s : State) (size : ElemSize) (r c : Nat) : Int := (s.dstPlane size).get s.mem r c

/-- `Clip(0, m, d + RoundSigned6(alpha * p))` (R122, R123). -/
def predicted (m alpha p d : Int) : Int := clip 0 m (d + roundSigned6 (alpha * p))

/-- The kernel both commands share: the scaled Q3 sample added to the destination sample and clipped, in place in the
destination plane; the Q3 buffer is only read (R122, R123). `refuse(overlap)` when the destination
region meets the Q3 region or folds onto itself (20_memory.md R58, R59). -/
def predict (size : ElemSize) (m alpha : Int) (s : State) (w h : Nat) : Result :=
  runWriting s (s.dst size w h) [s.q3 w h] ((s.dst size w h).meets (s.q3 w h) || (s.dst size w h).folds) true fun r c =>
    predicted m alpha (s.q3Sample r c) (s.dstSample size r c)

/-- `PRED.LBD <size>, <alpha>` (R122); `BD` is not read. -/
def execPredLbd (txs : Nat) (alpha : Int) (s : State) : Result :=
  runCommand s txs (predict .one pixMaxLbd alpha s)

/-- `PRED.HBD <size>, <alpha>` (R123); the bound is chosen by `BD.DEPTH` (R121). -/
def execPredHbd (txs : Nat) (alpha : Int) (s : State) : Result :=
  runCommand s txs (predict .two (pixMaxHbd s.depth) alpha s)

end Sys2Proof.Machine
end

