-- ==== Sys2Proof/Machine/Comparator.lean ====
section
/-! DEFINITION. The parity_comparator: `CMP.E8` and `CMP.E16` (spec 44_parity_comparator.md). -/

namespace Sys2Proof.Machine

/-- Twin buffer `A` over a block (44_parity_comparator.md R140, R141). -/
def State.twinA (s : State) (size : ElemSize) (w h : Nat) : Access := ⟨s.srcPlane size, w, h⟩

/-- Twin buffer `B` over a block (R140, R141). -/
def State.twinB (s : State) (size : ElemSize) (w h : Nat) : Access := ⟨s.dstPlane size, w, h⟩

/-- The elements of the twin buffers at (r, c) differ as bit patterns (R142). -/
def State.twinsDiffer (s : State) (size : ElemSize) (r c : Nat) : Bool :=
  (s.srcPlane size).get s.mem r c != (s.dstPlane size).get s.mem r c

/-- The first position, in raster order, where the twin buffers differ (R142). -/
def State.firstMismatch (s : State) (size : ElemSize) (w h : Nat) : Option (Nat × Nat) :=
  (positions w h).find? fun p => s.twinsDiffer size p.1 p.2

/-- What `FINFO` records of a mismatch: `row << 8 | col` (60_exceptions.md R152). -/
def mismatchInfo (r c : Nat) : Word := BitVec.ofNat 32 (r <<< 8 ||| c)

/-- The kernel both commands share: nothing when the buffers are equal over the block, else the fault
`PARITY_MISMATCH` at the first mismatch (R140, R141, R142). Only `refuse(unmapped)` is possible (R140). -/
def compareTwins (size : ElemSize) (s : State) (w h : Nat) : Result :=
  if !([s.twinA size w h, s.twinB size w h].all s.mappedAll) then .refused .unmapped
  else
    match s.firstMismatch size w h with
    | none => .next s
    | some (r, c) => .next (takeFault s .parityMismatch (mismatchInfo r c))

/-- `CMP.E8 <size>` (R140). -/
def execCmpE8 (txs : Nat) (s : State) : Result := runCommand s txs (compareTwins .one s)

/-- `CMP.E16 <size>` (R141). -/
def execCmpE16 (txs : Nat) (s : State) : Result := runCommand s txs (compareTwins .two s)

end Sys2Proof.Machine
end

