-- ==== Sys2Proof/Machine/Dispatch.lean ====
section
/-! DEFINITION. One arm per command, each one call of its meaning. -/

namespace Sys2Proof.Machine

/-- The effect of writing a command's word to `CMD` (30_encoding.md R77, steps 1 and 3 to 5). -/
def exec (i : Instr) (s : State) : Host.Outcome State Fault Refusal :=
  match i with
  | .subavg txs => Sys2Proof.Machine.execSubavg txs s
  | .subs420lbd txs => Sys2Proof.Machine.execSubs420lbd txs s
  | .subs422lbd txs => Sys2Proof.Machine.execSubs422lbd txs s
  | .subs444lbd txs => Sys2Proof.Machine.execSubs444lbd txs s
  | .subs420hbd txs => Sys2Proof.Machine.execSubs420hbd txs s
  | .subs422hbd txs => Sys2Proof.Machine.execSubs422hbd txs s
  | .subs444hbd txs => Sys2Proof.Machine.execSubs444hbd txs s
  | .predLbd txs alpha => Sys2Proof.Machine.execPredLbd txs alpha s
  | .predHbd txs alpha => Sys2Proof.Machine.execPredHbd txs alpha s
  | .cmpE8 txs => Sys2Proof.Machine.execCmpE8 txs s
  | .cmpE16 txs => Sys2Proof.Machine.execCmpE16 txs s

end Sys2Proof.Machine
end

