-- ==== Sys2Proof/Machine/HostPort.lean ====
section
/-! DEFINITION. The host's side of the block: the register port (10_state.md R29 to R33), execution of a command word
(30_encoding.md R77), and the effect of each host action. -/

namespace Sys2Proof.Machine

/-- The nine registers of the register port (10_state.md R33). -/
inductive Reg where
  | cmd | status | finfo | bd | srcBase | srcStride | dstBase | dstStride | q3Base
  deriving DecidableEq, Repr

/-- Every register, in the order of the map. -/
def Reg.all : List Reg := [.cmd, .status, .finfo, .bd, .srcBase, .srcStride, .dstBase, .dstStride, .q3Base]

/-- The byte offset of a register (10_state.md R33). -/
def Reg.offset : Reg → Nat
  | .cmd => 0x00
  | .status => 0x04
  | .finfo => 0x08
  | .bd => 0x0C
  | .srcBase => 0x10
  | .srcStride => 0x14
  | .dstBase => 0x18
  | .dstStride => 0x1C
  | .q3Base => 0x20

/-- The register at a byte offset, if the map has one there (10_state.md R33). -/
def Reg.at? (offset : Nat) : Option Reg := Reg.all.find? fun r => decide (r.offset = offset)

/-- What a host read of a register returns; `CMD` reads as 0 (10_state.md R29, R33). -/
def State.readReg (s : State) : Reg → Word
  | .cmd => 0#32
  | .status => s.status
  | .finfo => s.finfo
  | .bd => s.bd
  | .srcBase => s.srcBase
  | .srcStride => s.srcStride
  | .dstBase => s.dstBase
  | .dstStride => s.dstStride
  | .q3Base => s.q3Base

/-- Execution of a command word (30_encoding.md R77): nothing while `HALT` is 1 (60_exceptions.md R155), the fault
`ILLEGAL_COMMAND` for a word that spells no command (R78, R151), else the command. -/
def executeWord (c : Word) (s : State) : Result :=
  if s.halted then .next s
  else
    match decode c with
    | .ok i => exec i s
    | .error _ => .next (takeFault s .illegalCommand c)

/-- A host write to a register (10_state.md R29 to R33): `CMD` executes, `STATUS` and `FINFO` ignore it, `BD` stores
bits 7:0, the operand registers store 32 bits; accepted whether `HALT` is 0 or 1. -/
def writeReg (r : Reg) (v : Word) (s : State) : Result :=
  match r with
  | .cmd => executeWord v s
  | .status => .next s
  | .finfo => .next s
  | .bd => .next { s with bd := BitVec.ofNat 32 (slice v (Config.bdBits - 1) 0) }
  | .srcBase => .next { s with srcBase := v }
  | .srcStride => .next { s with srcStride := v }
  | .dstBase => .next { s with dstBase := v }
  | .dstStride => .next { s with dstStride := v }
  | .q3Base => .next { s with q3Base := v }

/-- The port carries 32-bit accesses at byte offsets that are multiples of 4 (10_state.md R33). -/
def portShapeOk (bits offset : Nat) : Bool := decide (bits = Config.regBits) && decide (offset % 4 = 0)

/-- A value returned to the host by one of its reads (assumption log 3). -/
def State.answer (s : State) (v : Word) : State := { s with returned := v :: s.returned }

/-- The effect of one host action. -/
def act (a : HostAction) (s : State) : Result :=
  match a with
  | .portWrite bits offset v =>
    if portShapeOk bits offset then
      match Reg.at? offset with
      | some r => writeReg r v s
      | none => .next s
    else .refused .portShape
  | .portRead bits offset =>
    if portShapeOk bits offset then
      match Reg.at? offset with
      | some r => .next (s.answer (s.readReg r))
      | none => .next (s.answer 0#32)
    else .refused .portShape
  | .memWrite a v =>
    if s.mapped a.toNat then .next { s with mem := s.mem.setByte a.toNat v } else .refused .unmapped
  | .memRead a =>
    if s.mapped a.toNat then .next (s.answer ((s.mem.byte a.toNat).setWidth 32)) else .refused .unmapped
  | .reset => .next s.applyReset

/-- The host action that writes the word `c` to `CMD` (30_encoding.md R81: `cmd c`). -/
def HostAction.command (c : Word) : HostAction := .portWrite Config.regBits Reg.cmd.offset c

/-- The host action `wr <REG>, v` (30_encoding.md R81). -/
def HostAction.wr (r : Reg) (v : Word) : HostAction := .portWrite Config.regBits r.offset v

/-- The host action `rd <REG>` (30_encoding.md R81). -/
def HostAction.rd (r : Reg) : HostAction := .portRead Config.regBits r.offset

end Sys2Proof.Machine
end

