-- ==== Sys2Proof/Machine/Step.lean ====
section
/-! DEFINITION. One step: the next action of the host is performed, to completion (20_memory.md R63,
70_reset_and_hazards.md R177). Between actions the block is idle and keeps all its state (60_exceptions.md R165). -/

namespace Sys2Proof.Machine

/-- One step of the machine. -/
def step (s : State) : Host.Outcome State Fault Refusal :=
  match s.pending with
  | [] => .next s
  | a :: rest => act a { s with pending := rest }

/-- `s` with the command word `w` (of `nbits` bits, the bits above them 0) as the host's next action, a write to `CMD`:
that is where the block takes its next command from (10_state.md R27, R29; assumption log 1). -/
def State.withFetchWord (s : State) (nbits w : Nat) : State :=
  { s with pending := .command (BitVec.ofNat 32 (w % 2 ^ nbits)) :: s.pending }

end Sys2Proof.Machine
end

