-- ==== Sys2Proof/Safety.lean ====
section
/-! DEFINITION. What counts as a good run (spec 70_reset_and_hazards.md R177), the premises under which every command
completes (R178), and the invariant of the machine's registers and memory, in the terms the statements use. -/

namespace Sys2Proof.Machine

/-! ### Runs -/

/-- A run: the host's actions performed in order from a start state (R177). -/
def runActions (actions : List HostAction) (s : State) : Result :=
  Host.Core.run Sys2Proof.core actions.length { s with pending := actions }

/-- How a run ended (R177). -/
inductive Verdict where
  /-- `HALT` is 0 and no command was refused. -/
  | good
  /-- `HALT` is 1: a fault was taken. A failed run, whatever else holds of its end state (60_exceptions.md R155). -/
  | failed
  /-- An action of the run was refused: the run has no meaning. -/
  | noMeaning
  deriving DecidableEq, Repr

/-- The verdict on the end of a run (R177). -/
def verdict : Result → Verdict
  | .next s => if s.halted then .failed else .good
  | .fault _ => .noMeaning
  | .refused _ => .noMeaning

/-! ### The families -/

/-- The chroma format and luma sample size of a `SUBS` command (41_subsampler.md R100, R108). -/
def subsForm : Instr → Option (ChromaFormat × ElemSize)
  | .subs420lbd _ => some (.f420, .one)
  | .subs422lbd _ => some (.f422, .one)
  | .subs444lbd _ => some (.f444, .one)
  | .subs420hbd _ => some (.f420, .two)
  | .subs422hbd _ => some (.f422, .two)
  | .subs444hbd _ => some (.f444, .two)
  | .subavg _ => none
  | .predLbd _ _ => none
  | .predHbd _ _ => none
  | .cmpE8 _ => none
  | .cmpE16 _ => none

/-- The destination sample size of a `PRED` command (42_fixed_point_scaler.md R122, R123). -/
def predSize : Instr → Option ElemSize
  | .predLbd _ _ => some .one
  | .predHbd _ _ => some .two
  | .subavg _ => none
  | .subs420lbd _ => none
  | .subs422lbd _ => none
  | .subs444lbd _ => none
  | .subs420hbd _ => none
  | .subs422hbd _ => none
  | .subs444hbd _ => none
  | .cmpE8 _ => none
  | .cmpE16 _ => none

/-- The element size of a `CMP` command (44_parity_comparator.md R140, R141). -/
def cmpSize : Instr → Option ElemSize
  | .cmpE8 _ => some .one
  | .cmpE16 _ => some .two
  | .subavg _ => none
  | .subs420lbd _ => none
  | .subs422lbd _ => none
  | .subs444lbd _ => none
  | .subs420hbd _ => none
  | .subs422hbd _ => none
  | .subs444hbd _ => none
  | .predLbd _ _ => none
  | .predHbd _ _ => none

/-! ### The regions of a command -/

/-- An access touches a byte: one of its elements has a byte there (20_memory.md R57). -/
def Access.Touches (x : Access) (a : Nat) : Prop :=
  ∃ r c k, r < x.h ∧ c < x.w ∧ k < x.plane.size.bytes ∧ a = (x.plane.addr r c + k) % 2 ^ 32

/-- Two accesses share no byte (20_memory.md R58). -/
def Access.Apart (x y : Access) : Prop := ∀ a, x.Touches a → ¬ y.Touches a

/-- No two different elements of the access share a byte (20_memory.md R59). -/
def Access.Unfolded (x : Access) : Prop :=
  ∀ r c r' c' k k', r < x.h → c < x.w → r' < x.h → c' < x.w → k < x.plane.size.bytes → k' < x.plane.size.bytes →
    (x.plane.addr r c + k) % 2 ^ 32 = (x.plane.addr r' c' + k') % 2 ^ 32 → r = r' ∧ c = c'

/-- Every byte the access touches holds memory (20_memory.md R60). -/
def State.Maps (s : State) (x : Access) : Prop := ∀ a, x.Touches a → s.mapped a = true

/-- The write region of a command at a block of `w` by `h`, where it has one (40 R90, 41 R108, 42 R122, R123, 44 R140). -/
def commandWrites (i : Instr) (s : State) (w h : Nat) : Option Access :=
  match i with
  | .subavg _ => some (s.q3 w h)
  | .subs420lbd _ => some (s.q3 w h)
  | .subs422lbd _ => some (s.q3 w h)
  | .subs444lbd _ => some (s.q3 w h)
  | .subs420hbd _ => some (s.q3 w h)
  | .subs422hbd _ => some (s.q3 w h)
  | .subs444hbd _ => some (s.q3 w h)
  | .predLbd _ _ => some (s.dst .one w h)
  | .predHbd _ _ => some (s.dst .two w h)
  | .cmpE8 _ => none
  | .cmpE16 _ => none

/-- The read regions of a command at a block of `w` by `h`, its in-place one included (40 R90, 41 R101 to R108, 42 R122,
R123, 44 R140, R141). -/
def commandReads (i : Instr) (s : State) (w h : Nat) : List Access :=
  match i with
  | .subavg _ => [s.q3 w h]
  | .subs420lbd _ => [s.luma .f420 .one w h]
  | .subs422lbd _ => [s.luma .f422 .one w h]
  | .subs444lbd _ => [s.luma .f444 .one w h]
  | .subs420hbd _ => [s.luma .f420 .two w h]
  | .subs422hbd _ => [s.luma .f422 .two w h]
  | .subs444hbd _ => [s.luma .f444 .two w h]
  | .predLbd _ _ => [s.q3 w h, s.dst .one w h]
  | .predHbd _ _ => [s.q3 w h, s.dst .two w h]
  | .cmpE8 _ => [s.twinA .one w h, s.twinB .one w h]
  | .cmpE16 _ => [s.twinA .two w h, s.twinB .two w h]

/-! ### The premises of a run -/

/-- Every sample of a `w` by `h` block satisfies `P`. -/
def InBlock (w h : Nat) (P : Nat → Nat → Prop) : Prop := ∀ r c, r < h → c < w → P r c

/-- The luma samples an `HBD` command reads are at most 4095 (R178 (P4), 41_subsampler.md R107). -/
def State.LumaOk (s : State) (f : ChromaFormat) (w h : Nat) : Prop :=
  InBlock (w <<< f.subX) (h <<< f.subY) fun y x => s.lumaSample .two y x ≤ 4095

/-- The sum of the samples of a `w` by `h` block, as a mathematical integer (40_dc_remover.md R90). -/
def sumBlock (w h : Nat) (f : Nat → Nat → Int) : Int := ∑ r ∈ Finset.range h, ∑ c ∈ Finset.range w, f r c

/-- The block's mean rounded to nearest, a tie going up: `floor((sum + N / 2) / N)` with `N = w * h`
(40_dc_remover.md R90; `N` is a power of two for every size of R131). -/
def meanOf (w h : Nat) (f : Nat → Nat → Int) : Int := (sumBlock w h f + (w * h / 2 : Nat)) / (w * h : Nat)

/-- Every sample of the block minus the average fits a Q3 element: the exact condition of 40_dc_remover.md R93. -/
def State.DifferencesFit (s : State) (w h : Nat) : Prop :=
  InBlock w h fun r c =>
    -32768 ≤ s.q3Sample r c - meanOf w h s.q3Sample ∧ s.q3Sample r c - meanOf w h s.q3Sample ≤ 32767

/-- The spread of the block is at most 32767 (R178 (P4), 40_dc_remover.md R93). -/
def State.SpreadOk (s : State) (w h : Nat) : Prop :=
  InBlock w h fun r c => InBlock w h fun r' c' => s.q3Sample r c - s.q3Sample r' c' ≤ 32767

/-- Premises (P3) and (P4) of R178 for a command at a block of `w` by `h`: its regions are mapped, its write region is
apart from its other read regions and not folded, its samples are in range. -/
def CommandReady (i : Instr) (s : State) (w h : Nat) : Prop :=
  match i with
  | .subavg _ => s.Maps (s.q3 w h) ∧ (s.SpreadOk w h ∨ s.DifferencesFit w h)
  | .subs420lbd _ =>
    s.Maps (s.q3 w h) ∧ s.Maps (s.luma .f420 .one w h) ∧ (s.q3 w h).Apart (s.luma .f420 .one w h)
  | .subs422lbd _ =>
    s.Maps (s.q3 w h) ∧ s.Maps (s.luma .f422 .one w h) ∧ (s.q3 w h).Apart (s.luma .f422 .one w h)
  | .subs444lbd _ =>
    s.Maps (s.q3 w h) ∧ s.Maps (s.luma .f444 .one w h) ∧ (s.q3 w h).Apart (s.luma .f444 .one w h)
  | .subs420hbd _ =>
    s.Maps (s.q3 w h) ∧ s.Maps (s.luma .f420 .two w h) ∧ (s.q3 w h).Apart (s.luma .f420 .two w h) ∧ s.LumaOk .f420 w h
  | .subs422hbd _ =>
    s.Maps (s.q3 w h) ∧ s.Maps (s.luma .f422 .two w h) ∧ (s.q3 w h).Apart (s.luma .f422 .two w h) ∧ s.LumaOk .f422 w h
  | .subs444hbd _ =>
    s.Maps (s.q3 w h) ∧ s.Maps (s.luma .f444 .two w h) ∧ (s.q3 w h).Apart (s.luma .f444 .two w h) ∧ s.LumaOk .f444 w h
  | .predLbd _ _ =>
    s.Maps (s.dst .one w h) ∧ s.Maps (s.q3 w h) ∧ (s.dst .one w h).Apart (s.q3 w h) ∧ (s.dst .one w h).Unfolded
  | .predHbd _ _ =>
    s.Maps (s.dst .two w h) ∧ s.Maps (s.q3 w h) ∧ (s.dst .two w h).Apart (s.q3 w h) ∧ (s.dst .two w h).Unfolded
  | .cmpE8 _ => s.Maps (s.twinA .one w h) ∧ s.Maps (s.twinB .one w h)
  | .cmpE16 _ => s.Maps (s.twinA .two w h) ∧ s.Maps (s.twinB .two w h)

/-! ### What a command leaves alone -/

/-- Everything but the bytes of one region is as it was: every register, the host's queue and answers, the platform, and
every byte the region does not touch (20_memory.md R68). -/
def OnlyWrites (s t : State) (x : Access) : Prop :=
  t = { s with mem := t.mem } ∧ ∀ a, a < 2 ^ 32 → ¬ x.Touches a → t.mem.byte a = s.mem.byte a

/-- Two states a command cannot tell apart (40_dc_remover.md R92): the same platform, the same planes and depth where
the command reads them, the same bytes in its read regions. -/
def SameInputs (i : Instr) (s s' : State) : Prop :=
  s.unmapped = s'.unmapped ∧ (∀ t a, i = .predHbd t a → s.depth = s'.depth) ∧
  ∀ w h, resolve i.txs = .block w h →
    commandReads i s w h = commandReads i s' w h ∧ commandWrites i s w h = commandWrites i s' w h ∧
    ∀ x ∈ commandReads i s w h, ∀ a, x.Touches a → s.mem.byte a = s'.mem.byte a

/-! ### The invariant -/

/-- `STATUS` and `FINFO` hold one of the three pairs the block can produce (10_state.md R30, R31): running; halted by a
mismatch at some position of a block; halted by a word that spells no command. -/
def State.FaultRecordOk (s : State) : Prop :=
  (s.status = 0x00000000#32 ∧ s.finfo = 0x00000000#32) ∨
  (s.status = 0x00000011#32 ∧ ∃ r c, r < 32 ∧ c < 32 ∧ s.finfo = BitVec.ofNat 32 (256 * r + c)) ∨
  (s.status = 0x00000021#32 ∧ ∃ e, decode s.finfo = .error e)

/-- The invariant every step keeps: the fault record is legal, the reserved bits of `BD` are 0 (10_state.md R32), the
memory is in its canonical form. -/
structure State.Inv (s : State) : Prop where
  /-- `STATUS` and `FINFO` (R30, R31). -/
  faultRecord : s.FaultRecordOk
  /-- `BD` 31:8 (R32). -/
  depth : s.bd.toNat < 256
  /-- The canonical form. -/
  memory : s.mem.wf = true

end Sys2Proof.Machine
end

