-- ==== Sys2Proof/Certificates/Slice0/Obligations.lean ====
section
/-! DEFINITION. The statements for the provers. Each docstring names the rule of spec/ it rests on. -/

open Sys2Proof Sys2Proof.Machine

/-! ### Encoding (30_encoding.md) -/

/-- Decoding the word of a well-formed command gives the command back (R70, R74 to R76). -/
def Obligations.DecodeOfEncode : Prop :=
  ∀ i : Instr, i.wf = true → decode (encode i) = .ok i

/-- A word that decodes spells a well-formed command, and is that command's one word (R70, R76, R79). -/
def Obligations.EncodeOfDecode : Prop :=
  ∀ (c : Word) (i : Instr), decode c = .ok i → i.wf = true ∧ encode i = c

/-- The words the decoder rejects are exactly those R78 lists, in terms of the bits of the word, the word 0 among them;
and writing one to `CMD` of a running block takes the fault `ILLEGAL_COMMAND` with the word, and touches no memory
(30_encoding.md R78). -/
def Obligations.RejectedWordsAreTheListedOnes : Prop :=
  (∀ c : Word, (∃ e, decode c = .error e) ↔
    ((c.extractLsb' 0 4 = 0#4 ∨ 5#4 ≤ c.extractLsb' 0 4) ∨ c.getLsbD 7 = true ∨
      (c.extractLsb' 0 4 = 2#4 ∧ c.extractLsb' 4 2 = 3#2) ∨ (c.extractLsb' 0 4 ≠ 2#4 ∧ c.extractLsb' 4 2 ≠ 0#2) ∨
      (c.extractLsb' 0 4 = 1#4 ∧ c.getLsbD 6 = true) ∨ (c.extractLsb' 0 4 ≠ 3#4 ∧ c.extractLsb' 16 16 ≠ 0#16))) ∧
  (∃ e, decode 0x00000000#32 = .error e) ∧
  ∀ (c : Word) (s : State), (∃ e, decode c = .error e) → s.halted = false →
    act (.command c) s = .next { s with status := 0x00000021#32, finfo := c }

/-- The rows of the opcode map are disjoint (R76). -/
def Obligations.OpcodeRowsAreDisjoint : Prop :=
  opRows.Pairwise fun r q => ∀ c : Word, ¬ (r.covers c = true ∧ q.covers c = true)

/-- There are 33 556 736 legal words (R76). -/
def Obligations.LegalWordCount : Prop :=
  (Finset.univ.filter fun c : Word => (decode c).toOption.isSome = true).card = 33556736

/-- The words of 95_test_vectors.md section 2.7 decode to the commands it lists beside them (R76). -/
def Obligations.ListedWordsDecode : Prop :=
  decode 0x00000001#32 = .ok (.subavg 0) ∧ decode 0x00001801#32 = .ok (.subavg 24) ∧
  decode 0x00000142#32 = .ok (.subs420hbd 1) ∧ decode 0x00000552#32 = .ok (.subs422hbd 5) ∧
  decode 0x00000662#32 = .ok (.subs444hbd 6) ∧ decode 0x000C0003#32 = .ok (.predLbd 0 12) ∧
  decode 0xFFEC0643#32 = .ok (.predHbd 6 (-20)) ∧ decode 0x80000003#32 = .ok (.predLbd 0 (-32768)) ∧
  decode 0x7FFF0003#32 = .ok (.predLbd 0 32767) ∧ decode 0x0000FF44#32 = .ok (.cmpE16 255)

/-- A step whose action writes a word that spells no command to `CMD` of a running block records the word and halts the
block, and changes nothing else: no memory, no other register (60_exceptions.md R151, R154; the queue of host actions is
the model's own, assumption log 1). -/
def Obligations.IllegalWordHaltsTheBlock : Prop :=
  ∀ (s : State) (c : Word) (rest : List HostAction), s.pending = .command c :: rest → s.halted = false →
    (∃ e, decode c = .error e) →
    step s = .next { s with pending := rest, status := 0x00000021#32, finfo := c }

/-! ### The step and the host (10_state.md, 70_reset_and_hazards.md) -/

/-- A write to `CMD` of a word that decodes runs the command it decodes to, in the state without that action (R77). The
queue of host actions is the model's own (assumption log 1). -/
def Obligations.StepRunsTheDecodedCommand : Prop :=
  ∀ (s : State) (c : Word) (rest : List HostAction) (i : Instr), s.pending = .command c :: rest → decode c = .ok i →
    i.wf = true → step s = exec i { s with pending := rest }

/-- With no host action waiting a step changes nothing: the block is idle and keeps all its state (60_exceptions.md
R165; that idling is a step is the model's choice, assumption log 2). -/
def Obligations.IdleStepChangesNothing : Prop :=
  ∀ s : State, s.pending = [] → step s = .next s

/-- The host's own memory accesses (30_encoding.md R81, 20_memory.md R56, R63; one byte at a time is the model's choice,
assumption log 15): a write changes its byte and no other, a read returns its byte and changes nothing. -/
def Obligations.HostReadsAndWritesMemory : Prop :=
  ∀ (s : State) (a : Word) (rest : List HostAction), s.mapped a.toNat = true →
    (∀ v, s.pending = .memWrite a v :: rest →
      ∃ t, step s = .next t ∧ t = { s with pending := rest, mem := t.mem } ∧ t.mem.byte a.toNat = v ∧
        ∀ b, b < 2 ^ 32 → b ≠ a.toNat → t.mem.byte b = s.mem.byte b) ∧
    (s.pending = .memRead a :: rest →
      step s = .next { s with pending := rest, returned := (s.mem.byte a.toNat).setWidth 32 :: s.returned })

/-- The register port (R29 to R33): what each write stores and each read returns, whether the block is halted or not. -/
def Obligations.RegisterPortReadsAndWrites : Prop :=
  ∀ (s : State) (v : Word),
    act (.wr .srcBase v) s = .next { s with srcBase := v } ∧
    act (.wr .srcStride v) s = .next { s with srcStride := v } ∧
    act (.wr .dstBase v) s = .next { s with dstBase := v } ∧
    act (.wr .dstStride v) s = .next { s with dstStride := v } ∧
    act (.wr .q3Base v) s = .next { s with q3Base := v } ∧
    (∃ t, act (.wr .bd v) s = .next t ∧ t = { s with bd := t.bd } ∧ t.bd.toNat = v.toNat % 256) ∧
    act (.wr .status v) s = .next s ∧ act (.wr .finfo v) s = .next s ∧
    act (.rd .cmd) s = .next { s with returned := 0#32 :: s.returned } ∧
    act (.rd .status) s = .next { s with returned := s.status :: s.returned } ∧
    act (.rd .finfo) s = .next { s with returned := s.finfo :: s.returned } ∧
    act (.rd .bd) s = .next { s with returned := s.bd :: s.returned } ∧
    act (.rd .srcBase) s = .next { s with returned := s.srcBase :: s.returned } ∧
    act (.rd .srcStride) s = .next { s with returned := s.srcStride :: s.returned } ∧
    act (.rd .dstBase) s = .next { s with returned := s.dstBase :: s.returned } ∧
    act (.rd .dstStride) s = .next { s with returned := s.dstStride :: s.returned } ∧
    act (.rd .q3Base) s = .next { s with returned := s.q3Base :: s.returned }

/-- An aligned 32-bit access at an offset above the map's last register reads 0 and ignores a write (R33). -/
def Obligations.OffsetsOutsideTheMapReadZero : Prop :=
  ∀ (s : State) (offset : Nat) (v : Word), offset % 4 = 0 → 0x20 < offset →
    act (.portRead 32 offset) s = .next { s with returned := 0#32 :: s.returned } ∧
    act (.portWrite 32 offset v) s = .next s

/-- A port access that is not 32 bits wide or not at a multiple of 4 has no meaning (R33, 93 U9). -/
def Obligations.MisshapenPortAccessIsRefused : Prop :=
  ∀ (s : State) (bits offset : Nat) (v : Word), (bits ≠ 32 ∨ offset % 4 ≠ 0) →
    act (.portRead bits offset) s = .refused .portShape ∧ act (.portWrite bits offset v) s = .refused .portShape

/-- A halted block (60_exceptions.md R155): a write to `CMD` does nothing, legal or not; reads return the latched values;
writes to `BD` and the operand registers are stored; memory accesses are unaffected; no action but reset changes
`STATUS` or `FINFO`, and reset clears `HALT`; a state with `HALT` 1 is a failed run. -/
def Obligations.HaltedBlockOnlyObeysTheHost : Prop :=
  ∀ s : State, s.halted = true →
    (∀ c, act (.command c) s = .next s) ∧
    (∀ r, act (.rd r) s = .next { s with returned := s.readReg r :: s.returned }) ∧
    (∀ r v, r ≠ .cmd → r ≠ .status → r ≠ .finfo →
      ∃ t, act (.wr r v) s = .next t ∧ t.readReg r = (if r = .bd then v &&& 0xFF#32 else v) ∧
        ∀ q, q ≠ r → t.readReg q = s.readReg q) ∧
    (∀ a v, s.mapped a.toNat = true →
      act (.memWrite a v) s = .next { s with mem := s.mem.setByte a.toNat v } ∧
      act (.memRead a) s = .next { s with returned := (s.mem.byte a.toNat).setWidth 32 :: s.returned }) ∧
    (∀ a t, a ≠ .reset → act a s = .next t → t.status = s.status ∧ t.finfo = s.finfo ∧ t.halted = true) ∧
    (∃ t, act .reset s = .next t ∧ t.halted = false) ∧
    verdict (.next s) = .failed

/-! ### Reset and faults (10_state.md R38, 60_exceptions.md, 70_reset_and_hazards.md) -/

/-- After reset every register holds 0 and commands are accepted, whatever the state before; memory is not changed
(10_state.md R38). -/
def Obligations.ResetClearsRegistersAndKeepsMemory : Prop :=
  ∀ s : State, ∃ t, act .reset s = .next t ∧
    t.status = 0#32 ∧ t.finfo = 0#32 ∧ t.bd = 0#32 ∧ t.srcBase = 0#32 ∧ t.srcStride = 0#32 ∧ t.dstBase = 0#32 ∧
    t.dstStride = 0#32 ∧ t.q3Base = 0#32 ∧ t.halted = false ∧ t.cause = 0 ∧ t.mem = s.mem

/-- Reset is the only event that clears `HALT`, `CAUSE` or `FINFO` (R170): a step of a halted block that is no reset
leaves both registers as they are. -/
def Obligations.OnlyResetClearsTheFaultRecord : Prop :=
  ∀ s t : State, s.halted = true → step s = .next t →
    (t.status = s.status ∧ t.finfo = s.finfo) ∨ ∃ rest, s.pending = .reset :: rest

/-- Taking a fault (R154): `FINFO` and `STATUS` are written, nothing else. -/
def Obligations.TakingAFaultWritesTheRecordOnly : Prop :=
  ∀ (s : State) (info : Word),
    takeFault s .parityMismatch info = { s with finfo := info, status := 0x00000011#32 } ∧
    takeFault s .illegalCommand info = { s with finfo := info, status := 0x00000021#32 }

/-- A run that starts halted and applies no reset is not good (R155, 70_reset_and_hazards.md R177). -/
def Obligations.HaltedRunsAreNeverGood : Prop :=
  ∀ (actions : List HostAction) (s : State), s.halted = true → HostAction.reset ∉ actions →
    verdict (runActions actions s) ≠ .good

/-! ### The size dispatch (43_size_dispatch_mux.md) -/

/-- `Resolve` over its 19 entries. The order of the catalog's indices is the spec's own, from general knowledge (R130,
93 G1): PRESUMED, assumption log 8. -/
def Obligations.ResolveTable : Prop :=
  (List.range 19).map resolve =
    [.block 4 4, .block 8 8, .block 16 16, .block 32 32, .noOp, .block 4 8, .block 8 4, .block 8 16, .block 16 8,
     .block 16 32, .block 32 16, .noOp, .noOp, .block 4 16, .block 16 4, .block 8 32, .block 32 8, .noOp, .noOp]

/-- `Resolve` looks up the index modulo 19, always inside the table, and gives the entry's size when both sides are at
most 32, else the no-op (43_size_dispatch_mux.md R135), whatever the order of the catalog. -/
def Obligations.ResolveLooksUpTheReducedIndex : Prop :=
  ∀ txs : Nat, ∃ w h, catalog[txs % 19]? = some (w, h) ∧
    resolve txs = if w ≤ 32 ∧ h ≤ 32 then .block w h else .noOp

/-- Every command sees its size index modulo 19; of the 256 values of the field, 14 reach each of the indices 0 to 8 and
13 each of the indices 9 to 18 (43_size_dispatch_mux.md R134). -/
def Obligations.SizeIndexCountsModulo19 : Prop :=
  (∀ (j k : Nat) (a : Int) (s : State),
    exec (.subavg (19 * j + k)) s = exec (.subavg k) s ∧
    exec (.subs420lbd (19 * j + k)) s = exec (.subs420lbd k) s ∧
    exec (.subs422lbd (19 * j + k)) s = exec (.subs422lbd k) s ∧
    exec (.subs444lbd (19 * j + k)) s = exec (.subs444lbd k) s ∧
    exec (.subs420hbd (19 * j + k)) s = exec (.subs420hbd k) s ∧
    exec (.subs422hbd (19 * j + k)) s = exec (.subs422hbd k) s ∧
    exec (.subs444hbd (19 * j + k)) s = exec (.subs444hbd k) s ∧
    exec (.predLbd (19 * j + k) a) s = exec (.predLbd k a) s ∧
    exec (.predHbd (19 * j + k) a) s = exec (.predHbd k a) s ∧
    exec (.cmpE8 (19 * j + k)) s = exec (.cmpE8 k) s ∧
    exec (.cmpE16 (19 * j + k)) s = exec (.cmpE16 k) s) ∧
  catalog.length = 19 ∧
  ∀ i, i < 19 → ((List.range 256).filter fun txs => decide (txs % catalog.length = i)).length = if i ≤ 8 then 14 else 13

/-- A command at a size with a side above 32 completes and changes nothing at all: no memory, no register, no fault
(43_size_dispatch_mux.md R132); this holds in every state, so nothing it could read matters. -/
def Obligations.UnsupportedSizesDoNothing : Prop :=
  ∀ (i : Instr) (s : State) (w h : Nat), catalog[i.txs % 19]? = some (w, h) → (32 < w ∨ 32 < h) → exec i s = .next s

/-! ### SUBAVG (40_dc_remover.md) -/

/-- `SUBAVG` completes and replaces each sample by itself minus the block's rounded mean; nothing but the block's bytes
changes (R90, R68). -/
def Obligations.SubavgSubtractsTheRoundedMean : Prop :=
  ∀ (txs w h : Nat) (s : State), s.halted = false → resolve txs = .block w h → s.Maps (s.q3 w h) →
    s.DifferencesFit w h →
    ∃ t, exec (.subavg txs) s = .next t ∧
      (InBlock w h fun r c => t.q3Sample r c = s.q3Sample r c - meanOf w h s.q3Sample) ∧
      OnlyWrites s t (s.q3 w h)

/-- Over a mapped Q3 block `SUBAVG` is `refuse(range)` exactly when some difference does not fit a signed 16-bit element;
this cannot happen when the samples differ by at most 32767, nor when every sample is in 0 to 32760 (40_dc_remover.md
R93). -/
def Obligations.SubavgRefusesWhenADifferenceDoesNotFit : Prop :=
  ∀ (txs w h : Nat) (s : State), s.halted = false → resolve txs = .block w h → s.Maps (s.q3 w h) →
    (exec (.subavg txs) s = .refused .range ↔ ∃ r c, r < h ∧ c < w ∧
      (s.q3Sample r c - meanOf w h s.q3Sample < -32768 ∨ 32767 < s.q3Sample r c - meanOf w h s.q3Sample)) ∧
    (s.SpreadOk w h → exec (.subavg txs) s ≠ .refused .range) ∧
    ((InBlock w h fun r c => 0 ≤ s.q3Sample r c ∧ s.q3Sample r c ≤ 32760) → exec (.subavg txs) s ≠ .refused .range)

/-- `avg`, as the machine computes it from a block's samples, lies between the smallest and the largest of them, both
included (40_dc_remover.md R90). -/
def Obligations.RoundedMeanLiesBetweenMinAndMax : Prop :=
  ∀ (txs w h : Nat) (f : Nat → Nat → Int) (lo hi : Int), resolve txs = .block w h →
    (InBlock w h fun r c => lo ≤ f r c ∧ f r c ≤ hi) → 
      lo ≤ roundedMean (blockSum f w h) w h ∧ roundedMean (blockSum f w h) w h ≤ hi

/-- After `SUBAVG` the block's sum is `((sum + N/2) mod N) - N/2`, so it lies in `-N/2` to `N/2 - 1`, and it is 0
exactly when `N` divides the old sum (40_dc_remover.md R94, which the spec marks as derived from R90). -/
def Obligations.SubavgLeavesTheRoundingResidue : Prop :=
  ∀ (txs w h : Nat) (s t : State), s.halted = false → resolve txs = .block w h → exec (.subavg txs) s = .next t →
    sumBlock w h t.q3Sample = sumBlock w h s.q3Sample - (w * h : Nat) * meanOf w h s.q3Sample ∧
    sumBlock w h t.q3Sample =
      (sumBlock w h s.q3Sample + (w * h / 2 : Nat)) % (w * h : Nat) - (w * h / 2 : Nat) ∧
    -((w * h / 2 : Nat) : Int) ≤ sumBlock w h t.q3Sample ∧ sumBlock w h t.q3Sample ≤ (w * h / 2 : Nat) - 1 ∧
    (sumBlock w h t.q3Sample = 0 ↔ ((w * h : Nat) : Int) ∣ sumBlock w h s.q3Sample)

/-- A second `SUBAVG` changes nothing (40_dc_remover.md R90's corner cases, which the spec marks as derived from R94), for
a memory in the model's canonical form. -/
def Obligations.SubavgIsIdempotent : Prop :=
  ∀ (txs : Nat) (s t : State), s.mem.wf = true → exec (.subavg txs) s = .next t → exec (.subavg txs) t = .next t

/-- The order in which a block's elements are stored does not matter (R92), for a plane that does not fold. -/
def Obligations.StoreOrderDoesNotMatter : Prop :=
  ∀ (x : Access) (val : Nat → Nat → Int) (m : Memory) (ps : List (Nat × Nat)), x.Unfolded → m.wf = true →
    ps.Perm (positions x.w x.h) → storeAt x.plane val ps m = x.storeAll val m

/-! ### SUBS (41_subsampler.md) -/

/-- `SUBS.420.LBD` stores twice the sum of the 2 by 2 luma samples that cover each output (R101). -/
def Obligations.Subs420LbdStoresDoubledSums : Prop :=
  ∀ (txs w h : Nat) (s : State), s.halted = false → resolve txs = .block w h →
    s.Maps (s.q3 w h) → s.Maps ⟨s.srcPlane .one, 2 * w, 2 * h⟩ → (s.q3 w h).Apart ⟨s.srcPlane .one, 2 * w, 2 * h⟩ →
    ∃ t, exec (.subs420lbd txs) s = .next t ∧
      (InBlock w h fun r c => t.q3Sample r c = 2 * (s.lumaSample .one (2 * r) (2 * c) +
        s.lumaSample .one (2 * r) (2 * c + 1) + s.lumaSample .one (2 * r + 1) (2 * c) +
        s.lumaSample .one (2 * r + 1) (2 * c + 1))) ∧
      OnlyWrites s t (s.q3 w h)

/-- `SUBS.422.LBD` stores four times the sum of the two luma samples that cover each output (R103). -/
def Obligations.Subs422LbdStoresQuadrupledPairs : Prop :=
  ∀ (txs w h : Nat) (s : State), s.halted = false → resolve txs = .block w h →
    s.Maps (s.q3 w h) → s.Maps ⟨s.srcPlane .one, 2 * w, h⟩ → (s.q3 w h).Apart ⟨s.srcPlane .one, 2 * w, h⟩ →
    ∃ t, exec (.subs422lbd txs) s = .next t ∧
      (InBlock w h fun r c => t.q3Sample r c =
        4 * (s.lumaSample .one r (2 * c) + s.lumaSample .one r (2 * c + 1))) ∧
      OnlyWrites s t (s.q3 w h)

/-- `SUBS.444.LBD` stores eight times each luma sample (R105). -/
def Obligations.Subs444LbdStoresEightfoldSamples : Prop :=
  ∀ (txs w h : Nat) (s : State), s.halted = false → resolve txs = .block w h →
    s.Maps (s.q3 w h) → s.Maps ⟨s.srcPlane .one, w, h⟩ → (s.q3 w h).Apart ⟨s.srcPlane .one, w, h⟩ →
    ∃ t, exec (.subs444lbd txs) s = .next t ∧
      (InBlock w h fun r c => t.q3Sample r c = 8 * s.lumaSample .one r c) ∧ OnlyWrites s t (s.q3 w h)

/-- `SUBS.420.HBD` stores twice the sum of the 2 by 2 luma samples that cover each output, when every luma sample read
is at most 4095 (R102, R107). -/
def Obligations.Subs420HbdStoresDoubledSums : Prop :=
  ∀ (txs w h : Nat) (s : State), s.halted = false → resolve txs = .block w h →
    s.Maps (s.q3 w h) → s.Maps ⟨s.srcPlane .two, 2 * w, 2 * h⟩ → (s.q3 w h).Apart ⟨s.srcPlane .two, 2 * w, 2 * h⟩ →
    (InBlock (2 * w) (2 * h) fun y x => s.lumaSample .two y x ≤ 4095) →
    ∃ t, exec (.subs420hbd txs) s = .next t ∧
      (InBlock w h fun r c => t.q3Sample r c = 2 * (s.lumaSample .two (2 * r) (2 * c) +
        s.lumaSample .two (2 * r) (2 * c + 1) + s.lumaSample .two (2 * r + 1) (2 * c) +
        s.lumaSample .two (2 * r + 1) (2 * c + 1))) ∧
      OnlyWrites s t (s.q3 w h)

/-- `SUBS.422.HBD` stores four times the sum of the two luma samples that cover each output, when every luma sample read
is at most 4095 (R104, R107). -/
def Obligations.Subs422HbdStoresQuadrupledPairs : Prop :=
  ∀ (txs w h : Nat) (s : State), s.halted = false → resolve txs = .block w h →
    s.Maps (s.q3 w h) → s.Maps ⟨s.srcPlane .two, 2 * w, h⟩ → (s.q3 w h).Apart ⟨s.srcPlane .two, 2 * w, h⟩ →
    (InBlock (2 * w) h fun y x => s.lumaSample .two y x ≤ 4095) →
    ∃ t, exec (.subs422hbd txs) s = .next t ∧
      (InBlock w h fun r c => t.q3Sample r c =
        4 * (s.lumaSample .two r (2 * c) + s.lumaSample .two r (2 * c + 1))) ∧
      OnlyWrites s t (s.q3 w h)

/-- `SUBS.444.HBD` stores eight times each luma sample, when every luma sample read is at most 4095 (R106, R107). -/
def Obligations.Subs444HbdStoresEightfoldSamples : Prop :=
  ∀ (txs w h : Nat) (s : State), s.halted = false → resolve txs = .block w h →
    s.Maps (s.q3 w h) → s.Maps ⟨s.srcPlane .two, w, h⟩ → (s.q3 w h).Apart ⟨s.srcPlane .two, w, h⟩ →
    (InBlock w h fun y x => s.lumaSample .two y x ≤ 4095) →
    ∃ t, exec (.subs444hbd txs) s = .next t ∧
      (InBlock w h fun r c => t.q3Sample r c = 8 * s.lumaSample .two r c) ∧ OnlyWrites s t (s.q3 w h)

/-- A high bit-depth `SUBS` that reads a luma sample above 4095 has no meaning (R107). -/
def Obligations.SubsHbdRefusesLargeSamples : Prop :=
  ∀ (txs w h : Nat) (s : State), s.halted = false → resolve txs = .block w h → s.Maps (s.q3 w h) →
    (s.Maps ⟨s.srcPlane .two, 2 * w, 2 * h⟩ → (s.q3 w h).Apart ⟨s.srcPlane .two, 2 * w, 2 * h⟩ →
      (∃ y x, y < 2 * h ∧ x < 2 * w ∧ 4095 < s.lumaSample .two y x) → exec (.subs420hbd txs) s = .refused .range) ∧
    (s.Maps ⟨s.srcPlane .two, 2 * w, h⟩ → (s.q3 w h).Apart ⟨s.srcPlane .two, 2 * w, h⟩ →
      (∃ y x, y < h ∧ x < 2 * w ∧ 4095 < s.lumaSample .two y x) → exec (.subs422hbd txs) s = .refused .range) ∧
    (s.Maps ⟨s.srcPlane .two, w, h⟩ → (s.q3 w h).Apart ⟨s.srcPlane .two, w, h⟩ →
      (∃ y x, y < h ∧ x < w ∧ 4095 < s.lumaSample .two y x) → exec (.subs444hbd txs) s = .refused .range)

/-- A `SUBS` whose Q3 write region shares a byte with its luma read region has no meaning (20_memory.md R58). That the
reason is `overlap` for an `HBD` form that also reads a luma sample above 4095 is the model's choice: refuse conditions
have no priority (60_exceptions.md R157), and the model names `overlap` before `range` (assumption log 6). -/
def Obligations.SubsRefusesOverlap : Prop :=
  ∀ (i : Instr) (f : ChromaFormat) (size : ElemSize) (w h a : Nat) (s : State),
    subsForm i = some (f, size) → s.halted = false → resolve i.txs = .block w h →
    s.Maps (s.q3 w h) → s.Maps (s.luma f size w h) →
    (s.q3 w h).Touches a → (s.luma f size w h).Touches a → exec i s = .refused .overlap

/-- On a luma region of constant value `v` every output of every format and depth is `v << 3`; and for 4:4:4 every
output is its input shifted left by 3 (41_subsampler.md R109, which the spec marks as derived from R101 to R106). -/
def Obligations.SubsScalesAConstantPlaneByEight : Prop :=
  ∀ (i : Instr) (f : ChromaFormat) (size : ElemSize) (w h : Nat) (s t : State),
    subsForm i = some (f, size) → s.halted = false → resolve i.txs = .block w h → exec i s = .next t →
    (∀ v : Nat, (InBlock (s.luma f size w h).w (s.luma f size w h).h fun y x => s.lumaSample size y x = v) →
      InBlock w h fun r c => t.q3Sample r c = (v <<< 3 : Nat)) ∧
    (f = .f444 → InBlock w h fun r c => t.q3Sample r c = s.lumaSample size r c * 2 ^ 3)

/-- Every value a `SUBS` stores is in 0 to 2040 at low bit depth and in 0 to 32760 at high bit depth (R107). -/
def Obligations.SubsOutputsStayInRange : Prop :=
  ∀ (i : Instr) (f : ChromaFormat) (size : ElemSize) (w h : Nat) (s t : State),
    subsForm i = some (f, size) → s.halted = false → resolve i.txs = .block w h → exec i s = .next t →
    InBlock w h fun r c => 0 ≤ t.q3Sample r c ∧ t.q3Sample r c ≤ (if size = .one then 2040 else 32760)

/-! ### PRED (42_fixed_point_scaler.md) -/

/-- `RoundSigned6(q)` is `q / 64` to the nearest integer, a tie going away from zero, and is odd (R120; the tie of the
non-negative branch is PRESUMED by the spec, assumption log 9). -/
def Obligations.RoundSigned6IsNearestTiesAway : Prop :=
  ∀ q : Int, roundSigned6 (-q) = -roundSigned6 q ∧
    -32 ≤ 64 * roundSigned6 q - q ∧ 64 * roundSigned6 q - q ≤ 32 ∧
    (0 ≤ q → q % 64 = 32 → 64 * roundSigned6 q = q + 32) ∧ (q ≤ 0 → q % 64 = 32 → 64 * roundSigned6 q = q - 32)

/-- `PixMax_HBD(DEPTH)` for every value of the field (R121). -/
def Obligations.PixMaxIsChosenByDepth : Prop :=
  ∀ depth : Nat, depth < 256 →
    (depth = 10 → pixMaxHbd depth = 1023) ∧ (depth = 12 → pixMaxHbd depth = 4095) ∧
    (depth ≠ 10 → depth ≠ 12 → pixMaxHbd depth = 255)

/-- `PRED.LBD` completes and replaces each destination sample by the clipped sum; the Q3 buffer, `BD` and everything else
stay (R122, R68). -/
def Obligations.PredLbdAddsTheScaledSample : Prop :=
  ∀ (txs w h : Nat) (alpha : Int) (s : State), s.halted = false → resolve txs = .block w h →
    s.Maps (s.dst .one w h) → s.Maps (s.q3 w h) → (s.dst .one w h).Apart (s.q3 w h) → (s.dst .one w h).Unfolded →
    ∃ t, exec (.predLbd txs alpha) s = .next t ∧
      (InBlock w h fun r c => t.dstSample .one r c =
        max 0 (min 255 (s.dstSample .one r c + roundSigned6 (alpha * s.q3Sample r c)))) ∧
      (InBlock w h fun r c => t.q3Sample r c = s.q3Sample r c) ∧
      OnlyWrites s t (s.dst .one w h)

/-- `PRED.HBD` completes and replaces each 16-bit destination sample by the sum clipped to the bound `BD.DEPTH` chooses
(R123, R121, R68). -/
def Obligations.PredHbdAddsTheScaledSample : Prop :=
  ∀ (txs w h : Nat) (alpha : Int) (s : State), s.halted = false → resolve txs = .block w h →
    s.Maps (s.dst .two w h) → s.Maps (s.q3 w h) → (s.dst .two w h).Apart (s.q3 w h) → (s.dst .two w h).Unfolded →
    ∃ t, exec (.predHbd txs alpha) s = .next t ∧
      (InBlock w h fun r c => t.dstSample .two r c =
        max 0 (min (if s.bd.toNat % 256 = 10 then 1023 else if s.bd.toNat % 256 = 12 then 4095 else 255)
          (s.dstSample .two r c + roundSigned6 (alpha * s.q3Sample r c)))) ∧
      (InBlock w h fun r c => t.q3Sample r c = s.q3Sample r c) ∧
      OnlyWrites s t (s.dst .two w h)

/-- `PRED` has no meaning when the destination region meets the Q3 region, or when two different elements of it share a
byte (20_memory.md R58, R59). -/
def Obligations.PredRefusesOverlap : Prop :=
  ∀ (i : Instr) (size : ElemSize) (w h : Nat) (s : State),
    predSize i = some size → s.halted = false → resolve i.txs = .block w h →
    s.Maps (s.dst size w h) → s.Maps (s.q3 w h) →
    (¬ (s.dst size w h).Apart (s.q3 w h) ∨ ¬ (s.dst size w h).Unfolded) → exec i s = .refused .overlap

/-- `alpha = 0` leaves every byte as it was: for `PRED.LBD` always, for `PRED.HBD` when the destination samples are
within the bound; a sample above the bound is clipped (42_fixed_point_scaler.md R124, which the spec marks as derived
from R122 and R123; 90_conflicts.md C2). -/
def Obligations.PredAlphaZeroKeepsValidSamples : Prop :=
  ∀ (txs w h : Nat) (s t : State), s.halted = false → resolve txs = .block w h →
    (exec (.predLbd txs 0) s = .next t → ∀ a, t.mem.byte a = s.mem.byte a) ∧
    (exec (.predHbd txs 0) s = .next t →
      (InBlock w h fun r c => t.dstSample .two r c = min (pixMaxHbd s.depth) (s.dstSample .two r c)) ∧
      ((InBlock w h fun r c => s.dstSample .two r c ≤ pixMaxHbd s.depth) → ∀ a, t.mem.byte a = s.mem.byte a))

/-- The ranges of the scaler's arithmetic: nothing leaves 32-bit signed arithmetic, and the clip brings the stored value
into 0 to its bound (42_fixed_point_scaler.md R125, which the spec marks as derived from R75 and R120). -/
def Obligations.ScalerArithmeticFits32Bits : Prop :=
  ∀ alpha p d m : Int, -32768 ≤ alpha → alpha ≤ 32767 → -32768 ≤ p → p ≤ 32767 → 0 ≤ d → d ≤ 65535 → 0 ≤ m →
    -1073709056 ≤ alpha * p ∧ alpha * p ≤ 1073741824 ∧
    -16776704 ≤ roundSigned6 (alpha * p) ∧ roundSigned6 (alpha * p) ≤ 16777216 ∧
    -(2 ^ 31 : Int) ≤ d + roundSigned6 (alpha * p) ∧ d + roundSigned6 (alpha * p) < 2 ^ 31 ∧
    0 ≤ predicted m alpha p d ∧ predicted m alpha p d ≤ m

/-- The Q3 buffer never folds onto itself, whatever its base (20_memory.md R59, 90_conflicts.md C6). -/
def Obligations.TheQ3BufferNeverFolds : Prop :=
  ∀ (s : State) (txs w h : Nat), resolve txs = .block w h → (s.q3 w h).Unfolded

/-! ### CMP (44_parity_comparator.md) -/

/-- A compare of buffers that are equal over the block does nothing; its two buffers may overlap (R140, R141). -/
def Obligations.CmpOfEqualBuffersDoesNothing : Prop :=
  ∀ (txs w h : Nat) (s : State), s.halted = false → resolve txs = .block w h →
    (s.Maps ⟨s.srcPlane .one, w, h⟩ → s.Maps ⟨s.dstPlane .one, w, h⟩ →
      (InBlock w h fun r c => s.mem.byte ((s.srcPlane .one).addr r c) = s.mem.byte ((s.dstPlane .one).addr r c)) →
      exec (.cmpE8 txs) s = .next s) ∧
    (s.Maps ⟨s.srcPlane .two, w, h⟩ → s.Maps ⟨s.dstPlane .two, w, h⟩ →
      (InBlock w h fun r c =>
        s.mem.byte ((s.srcPlane .two).addr r c) = s.mem.byte ((s.dstPlane .two).addr r c) ∧
        s.mem.byte ((s.srcPlane .two).addr r c + 1) = s.mem.byte ((s.dstPlane .two).addr r c + 1)) →
      exec (.cmpE16 txs) s = .next s)

/-- A compare faults at the first position in raster order where some byte of the two elements differs, records
`row << 8 | col` (at most 0x1F1F), and changes nothing else (44_parity_comparator.md R142). -/
def Obligations.CmpHaltsAtTheFirstMismatch : Prop :=
  ∀ (i : Instr) (size : ElemSize) (w h r c k : Nat) (s : State), cmpSize i = some size → s.halted = false →
    resolve i.txs = .block w h → s.Maps ⟨s.srcPlane size, w, h⟩ → s.Maps ⟨s.dstPlane size, w, h⟩ →
    r < h → c < w → k < size.bytes →
    s.mem.byte ((s.srcPlane size).addr r c + k) ≠ s.mem.byte ((s.dstPlane size).addr r c + k) →
    (∀ r' c' k', r' < h → c' < w → (r' < r ∨ r' = r ∧ c' < c) → k' < size.bytes →
      s.mem.byte ((s.srcPlane size).addr r' c' + k') = s.mem.byte ((s.dstPlane size).addr r' c' + k')) →
    exec i s = .next { s with status := 0x00000011#32, finfo := BitVec.ofNat 32 (256 * r + c) } ∧
      256 * r + c ≤ 0x1F1F

/-! ### Memory (20_memory.md) -/

/-- The element accesses (20_memory.md R52): loads are little-endian, addresses count modulo 2^32, `Load16s` reads two's
complement, a store changes its own bytes and no other, `Store8` and `Store16` store the value modulo 2^8 and 2^16. -/
def Obligations.ElementsAreLittleEndian : Prop :=
  ∀ (m : Memory) (a v : Nat) (z : Int),
    m.load .one a = (m.byte a).toNat ∧ m.load .two a = (m.byte a).toNat + 256 * (m.byte (a + 1)).toNat ∧
    m.byte a = m.byte (a % 2 ^ 32) ∧
    m.loadSigned a = (if m.load .two a < 32768 then (m.load .two a : Int) else (m.load .two a : Int) - 65536) ∧
    ((m.store .one a v).byte a).toNat = v % 256 ∧
    ((m.store .two a v).byte a).toNat = v % 256 ∧ ((m.store .two a v).byte (a + 1)).toNat = v / 256 % 256 ∧
    (∀ b, b % 2 ^ 32 ≠ a % 2 ^ 32 → (m.store .one a v).byte b = m.byte b) ∧
    (∀ b, b % 2 ^ 32 ≠ a % 2 ^ 32 → b % 2 ^ 32 ≠ (a + 1) % 2 ^ 32 → (m.store .two a v).byte b = m.byte b) ∧
    (∀ u : Nat, (u : Int) = z % 256 → m.storeValue .one a z = m.store .one a u) ∧
    (∀ u : Nat, (u : Int) = z % 65536 → m.storeValue .two a z = m.store .two a u)

/-- Plane addressing (R53): `Addr`, and a stride of `2^32 - k` acts as `-k`. -/
def Obligations.PlaneAddressing : Prop :=
  ∀ (p : Plane) (r c : Nat),
    p.addr r c = (p.base.toNat + (r * p.stride.toNat + c) * p.size.bytes) % 2 ^ 32 ∧
    ∀ k : Nat, p.stride.toNat + k = 2 ^ 32 →
      (p.addr r c : Int) = ((p.base.toNat : Int) + (-(r * k : Int) + c) * p.size.bytes) % 2 ^ 32

/-- A command with a region byte where no memory is has no meaning; where memory is everywhere, no command is refused
for that reason (20_memory.md R60). That the reason is `unmapped` where an overlap or a range condition holds as well is
the model's choice: refuse conditions have no priority (60_exceptions.md R157), and the model names `unmapped` first
(assumption log 6). -/
def Obligations.UnmappedRegionsAreRefused : Prop :=
  (∀ (i : Instr) (s : State) (w h a : Nat) (x : Access), s.halted = false → resolve i.txs = .block w h →
    (x ∈ commandReads i s w h ∨ commandWrites i s w h = some x) → x.Touches a → s.mapped a = false →
    exec i s = .refused .unmapped) ∧
  ∀ (i : Instr) (s : State), (∀ a, a < 2 ^ 32 → s.mapped a = true) → exec i s ≠ .refused .unmapped

/-! ### The machine as a whole -/

/-- Every step keeps the invariant: a legal `STATUS` and `FINFO` (10_state.md R30, R31), the reserved bits of `BD` zero
(R32), memory in canonical form. -/
def Obligations.EveryStepKeepsTheInvariant : Prop :=
  ∀ s t : State, s.Inv → step s = .next t → t.Inv

/-- The state after reset meets the invariant, and so does the state after power-up with any canonical memory. -/
def Obligations.ResetMeetsTheInvariant : Prop :=
  State.reset.Inv ∧ ∀ (m : Memory) (u : List AddrRange), m.wf = true → (State.powerUp m u).Inv

/-- The frame of every command (20_memory.md R68, which the spec marks as derived from R57; 10_state.md R21, R28): a
command changes only the bytes of its write region, and `STATUS` and `FINFO` only when it faults; at a no-op size, on a
halted block, or as an illegal word, it changes no byte. -/
def Obligations.EveryCommandKeepsItsFrame : Prop :=
  (∀ (i : Instr) (s t : State), exec i s = .next t →
    t = { s with mem := t.mem, status := t.status, finfo := t.finfo } ∧
    ((t.status = s.status ∧ t.finfo = s.finfo) ∨ (s.halted = false ∧ t.status = 0x00000011#32 ∧ t.mem = s.mem)) ∧
    ((s.halted = true ∨ resolve i.txs = .noOp) → t = s) ∧
    ∀ w h, resolve i.txs = .block w h →
      (commandWrites i s w h = none → t.mem = s.mem) ∧
      ∀ x, commandWrites i s w h = some x → ∀ a, a < 2 ^ 32 → ¬ x.Touches a → t.mem.byte a = s.mem.byte a) ∧
  ∀ (c : Word) (s t : State), (∃ e, decode c = .error e) → act (.command c) s = .next t →
    t = { s with status := t.status, finfo := t.finfo }

/-- On a running block a command at a supported size completes exactly when its regions are mapped, its write region is
apart from its other read regions and unfolded, and its samples are in range (60_exceptions.md R164; the premises are
those of 70_reset_and_hazards.md R178, which the spec marks as derived from R164, R172 and R173). -/
def Obligations.CommandsCompleteExactlyWhenReady : Prop :=
  ∀ (i : Instr) (s : State) (w h : Nat), s.halted = false → resolve i.txs = .block w h →
    ((∃ t, exec i s = .next t) ↔ CommandReady i s w h)

/-- What a command does is a function of its word, the registers its rule reads and the bytes of its read regions
(40_dc_remover.md R92): on two running states that agree on those it ends the same way, with the same bytes in its write
region and the same fault record. -/
def Obligations.CommandsReadOnlyTheirInputs : Prop :=
  ∀ (i : Instr) (s s' : State), s.halted = false → s'.halted = false → SameInputs i s s' →
    match exec i s, exec i s' with
    | .next t, .next t' =>
      (∀ w h x a, resolve i.txs = .block w h → commandWrites i s w h = some x → x.Touches a →
        t.mem.byte a = t'.mem.byte a) ∧
      ((t.status = s.status ∧ t.finfo = s.finfo ∧ t'.status = s'.status ∧ t'.finfo = s'.finfo) ∨
        (t.status = t'.status ∧ t.finfo = t'.finfo ∧ t.halted = true))
    | .refused r, .refused r' => r = r'
    | _, _ => False
end

