-- ==== Sys2Proof/Laws/Memory.lean ====
section
/-! SUPPORT. The bytes of memory: a read after a write, the canonical form, and that canonical memories which read the
same are the same. -/

namespace Sys2Proof.Machine

@[simp] theorem wrapAddr_lt (a : Nat) : wrapAddr a < 2 ^ 32 := Nat.mod_lt _ (by decide)

@[simp] theorem wrapAddr_wrapAddr (a : Nat) : wrapAddr (wrapAddr a) = wrapAddr a := Nat.mod_mod _ _

theorem wrapAddr_of_lt {a : Nat} (h : a < 2 ^ 32) : wrapAddr a = a := Nat.mod_eq_of_lt h

theorem wrapAddr_wrapAddr_add (a k : Nat) : wrapAddr (wrapAddr a + k) = wrapAddr (a + k) := by
  simp [wrapAddr]

/-! ### Looking up -/

theorem Memory.lookup_nil (a : Nat) : Memory.lookup [] a = Memory.unlisted := rfl

theorem Memory.lookup_erase_same (m : Memory) (a : Nat) : (m.erase a).lookup a = Memory.unlisted := by
  induction m with
  | nil => rfl
  | cons cell rest ih =>
    by_cases h : cell.1 = a
    · simpa [Memory.erase, h] using ih
    · simpa [Memory.erase, h, Memory.lookup] using ih

theorem Memory.lookup_erase_other (m : Memory) {a b : Nat} (hab : b ≠ a) : (m.erase a).lookup b = m.lookup b := by
  induction m with
  | nil => rfl
  | cons cell rest ih =>
    by_cases h : cell.1 = a
    · have hb : ¬ a = b := fun e => hab e.symm
      simpa [Memory.erase, h, Memory.lookup, hb] using ih
    · by_cases hc : cell.1 = b
      · subst hc
        simp [Memory.erase, hab, Memory.lookup]
      · simpa [Memory.erase, h, Memory.lookup, hc] using ih

theorem Memory.lookup_insert_other (m : Memory) {a b : Nat} (v : Byte) (hab : b ≠ a) :
    (m.insert a v).lookup b = m.lookup b := by
  have ha : ¬ a = b := fun e => hab e.symm
  induction m with
  | nil => simp [Memory.insert, Memory.lookup, ha]
  | cons cell rest ih =>
    by_cases h : a < cell.1
    · simp [Memory.insert, h, Memory.lookup, ha]
    · simp [Memory.insert, h, Memory.lookup, ih]

theorem Memory.lookup_insert_same {m : Memory} {a : Nat} (v : Byte) (hm : ∀ cell ∈ m, cell.1 ≠ a) :
    (m.insert a v).lookup a = v := by
  induction m with
  | nil => simp [Memory.insert, Memory.lookup]
  | cons cell rest ih =>
    have hc := hm cell (by simp)
    have hr := ih fun x hx => hm x (by simp [hx])
    by_cases h : a < cell.1
    · simp [Memory.insert, h, Memory.lookup]
    · simp [Memory.insert, h, Memory.lookup, hc, hr]

theorem Memory.erase_keys_ne (m : Memory) (a : Nat) : ∀ cell ∈ m.erase a, cell.1 ≠ a := by
  simp [Memory.erase]

/-- Reading the byte just written gives the value written (20_memory.md R56: memory is plain storage). -/
@[simp] theorem Memory.byte_setByte_same (m : Memory) (a : Nat) (v : Byte) : (m.setByte a v).byte a = v := by
  unfold Memory.setByte Memory.byte
  split
  · rename_i h
    rw [Memory.lookup_erase_same, h]
  · exact Memory.lookup_insert_same v (Memory.erase_keys_ne m _)

/-- A write leaves every other byte as it was. -/
theorem Memory.byte_setByte_other (m : Memory) {a b : Nat} (v : Byte) (hab : wrapAddr b ≠ wrapAddr a) :
    (m.setByte a v).byte b = m.byte b := by
  unfold Memory.setByte Memory.byte
  split
  · exact Memory.lookup_erase_other m hab
  · rw [Memory.lookup_insert_other _ _ hab, Memory.lookup_erase_other m hab]

/-- What a byte reads after one write, said once. -/
theorem Memory.byte_setByte (m : Memory) (a b : Nat) (v : Byte) :
    (m.setByte a v).byte b = if wrapAddr b = wrapAddr a then v else m.byte b := by
  split
  · rename_i h
    have : (m.setByte a v).byte b = (m.setByte a v).byte a := by simp [Memory.byte, h]
    simp [this]
  · exact Memory.byte_setByte_other m v ‹_›

/-- An address counts modulo 2^32 (20_memory.md R50). -/
@[simp] theorem Memory.byte_wrapAddr (m : Memory) (a : Nat) : m.byte (wrapAddr a) = m.byte a := by
  simp [Memory.byte]

theorem Memory.byte_congr (m : Memory) {a b : Nat} (h : wrapAddr a = wrapAddr b) : m.byte a = m.byte b := by
  simp [Memory.byte, h]

/-! ### The canonical form -/

/-- The addresses of `m` are above `a` and rise. -/
theorem Memory.rising_cons {cell : Host.Cell} {m : Memory} :
    Memory.rising (cell :: m) = true ↔ (∀ x ∈ m, cell.1 < x.1) ∧ Memory.rising m = true := by
  induction m generalizing cell with
  | nil => simp [Memory.rising]
  | cons b rest ih =>
    constructor
    · intro h
      simp only [Memory.rising, Bool.and_eq_true, decide_eq_true_eq] at h
      refine ⟨?_, h.2⟩
      intro x hx
      rcases List.mem_cons.mp hx with rfl | hx
      · exact h.1
      · exact h.1.trans ((ih.mp h.2).1 x hx)
    · rintro ⟨h1, h2⟩
      simp only [Memory.rising, Bool.and_eq_true, decide_eq_true_eq]
      exact ⟨h1 b (by simp), h2⟩

theorem Memory.rising_erase {m : Memory} (a : Nat) (h : Memory.rising m = true) :
    Memory.rising (m.erase a) = true := by
  induction m with
  | nil => rfl
  | cons cell rest ih =>
    obtain ⟨h1, h2⟩ := Memory.rising_cons.mp h
    by_cases hc : cell.1 = a
    · simpa [Memory.erase, hc] using ih h2
    · have : Memory.erase (cell :: rest) a = cell :: Memory.erase rest a := by simp [Memory.erase, hc]
      rw [this]
      exact Memory.rising_cons.mpr ⟨fun x hx => h1 x (List.mem_of_mem_filter hx), ih h2⟩

theorem Memory.mem_insert {m : Memory} {a : Nat} {v : Byte} {x : Host.Cell} (h : x ∈ m.insert a v) :
    x = (a, v) ∨ x ∈ m := by
  induction m with
  | nil => simpa [Memory.insert] using h
  | cons cell rest ih =>
    by_cases hc : a < cell.1
    · simpa [Memory.insert, hc] using h
    · simp only [Memory.insert, hc, if_false, List.mem_cons] at h
      rcases h with h | h
      · exact .inr (by simp [h])
      · rcases ih h with h | h
        · exact .inl h
        · exact .inr (by simp [h])

theorem Memory.rising_insert {m : Memory} {a : Nat} (v : Byte) (h : Memory.rising m = true)
    (hm : ∀ cell ∈ m, cell.1 ≠ a) : Memory.rising (m.insert a v) = true := by
  induction m with
  | nil => rfl
  | cons cell rest ih =>
    obtain ⟨h1, h2⟩ := Memory.rising_cons.mp h
    by_cases hc : a < cell.1
    · simp only [Memory.insert, hc, if_true]
      refine Memory.rising_cons.mpr ⟨?_, h⟩
      intro x hx
      rcases List.mem_cons.mp hx with rfl | hx
      · exact hc
      · exact hc.trans (h1 x hx)
    · simp only [Memory.insert, hc, if_false]
      refine Memory.rising_cons.mpr ⟨?_, ih h2 fun x hx => hm x (by simp [hx])⟩
      intro x hx
      rcases Memory.mem_insert hx with rfl | hx
      · have := hm cell (by simp)
        simp only at *
        omega
      · exact h1 x hx

theorem Memory.wf_iff {m : Memory} : m.wf = true ↔
    (∀ cell ∈ m, cell.1 < 2 ^ 32 ∧ cell.2 ≠ Memory.unlisted) ∧ Memory.rising m = true := by
  simp only [Memory.wf, Memory.entriesOk, Bool.and_eq_true, List.all_eq_true, decide_eq_true_eq]
  rfl

/-- A write keeps the canonical form. -/
theorem Memory.wf_setByte {m : Memory} (a : Nat) (v : Byte) (h : m.wf = true) : (m.setByte a v).wf = true := by
  obtain ⟨h1, h2⟩ := Memory.wf_iff.mp h
  unfold Memory.setByte
  split
  · exact Memory.wf_iff.mpr ⟨fun x hx => h1 x (List.mem_of_mem_filter hx), Memory.rising_erase _ h2⟩
  · rename_i hv
    refine Memory.wf_iff.mpr ⟨?_, Memory.rising_insert v (Memory.rising_erase _ h2) (Memory.erase_keys_ne m _)⟩
    intro x hx
    rcases Memory.mem_insert hx with rfl | hx
    · exact ⟨wrapAddr_lt a, hv⟩
    · exact h1 x (List.mem_of_mem_filter hx)

theorem Memory.lookup_of_mem {m : Memory} (h : Memory.rising m = true) {cell : Host.Cell} (hc : cell ∈ m) :
    m.lookup cell.1 = cell.2 := by
  induction m with
  | nil => simp at hc
  | cons b rest ih =>
    obtain ⟨h1, h2⟩ := Memory.rising_cons.mp h
    rcases List.mem_cons.mp hc with rfl | hc
    · simp [Memory.lookup]
    · have hne : ¬ b.1 = cell.1 := by have := h1 cell hc; omega
      simp [Memory.lookup, hne, ih h2 hc]

theorem Memory.lookup_of_not_mem {m : Memory} {a : Nat} (h : ∀ cell ∈ m, cell.1 ≠ a) :
    m.lookup a = Memory.unlisted := by
  induction m with
  | nil => rfl
  | cons b rest ih =>
    have hb := h b (by simp)
    simp [Memory.lookup, hb, ih fun x hx => h x (by simp [hx])]

/-- Canonical memories that read the same everywhere are the same list. -/
theorem Memory.ext_lookup {m n : Memory} (hm : m.wf = true) (hn : n.wf = true)
    (h : ∀ a, m.lookup a = n.lookup a) : m = n := by
  induction m generalizing n with
  | nil =>
    cases n with
    | nil => rfl
    | cons b rest =>
      obtain ⟨n1, n2⟩ := Memory.wf_iff.mp hn
      have := h b.1
      rw [Memory.lookup_of_mem n2 (by simp : b ∈ b :: rest)] at this
      exact absurd this.symm (n1 b (by simp)).2
  | cons a rest ih =>
    obtain ⟨m1, m2⟩ := Memory.wf_iff.mp hm
    obtain ⟨m3, m4⟩ := Memory.rising_cons.mp m2
    cases n with
    | nil =>
      have := h a.1
      rw [Memory.lookup_of_mem m2 (by simp : a ∈ a :: rest)] at this
      exact absurd this (m1 a (by simp)).2
    | cons b tail =>
      obtain ⟨n1, n2⟩ := Memory.wf_iff.mp hn
      obtain ⟨n3, n4⟩ := Memory.rising_cons.mp n2
      have key : a.1 = b.1 := by
        rcases Nat.lt_trichotomy a.1 b.1 with hlt | heq | hgt
        · have e := h a.1
          rw [Memory.lookup_of_mem m2 (by simp : a ∈ a :: rest), Memory.lookup_of_not_mem] at e
          · exact absurd e (m1 a (by simp)).2
          · intro x hx
            rcases List.mem_cons.mp hx with rfl | hx
            · omega
            · have := n3 x hx; omega
        · exact heq
        · have e := h b.1
          rw [Memory.lookup_of_mem n2 (by simp : b ∈ b :: tail), Memory.lookup_of_not_mem] at e
          · exact absurd e.symm (n1 b (by simp)).2
          · intro x hx
            rcases List.mem_cons.mp hx with rfl | hx
            · omega
            · have := m3 x hx; omega
      have val : a.2 = b.2 := by
        have e := h a.1
        rw [Memory.lookup_of_mem m2 (by simp : a ∈ a :: rest), key,
          Memory.lookup_of_mem n2 (by simp : b ∈ b :: tail)] at e
        exact e
      have hab : a = b := Prod.ext key val
      subst hab
      congr 1
      refine ih (Memory.wf_iff.mpr ⟨fun x hx => m1 x (by simp [hx]), m4⟩)
        (Memory.wf_iff.mpr ⟨fun x hx => n1 x (by simp [hx]), n4⟩) fun c => ?_
      by_cases hc : a.1 = c
      · subst hc
        rw [Memory.lookup_of_not_mem fun x hx => by have := m3 x hx; omega,
          Memory.lookup_of_not_mem fun x hx => by have := n3 x hx; omega]
      · have := h c
        simpa [Memory.lookup, hc] using this

/-- Canonical memories whose bytes agree are equal: the reads of 20_memory.md R52 see all there is. -/
theorem Memory.ext_byte {m n : Memory} (hm : m.wf = true) (hn : n.wf = true)
    (h : ∀ a, m.byte a = n.byte a) : m = n := by
  refine Memory.ext_lookup hm hn fun a => ?_
  by_cases ha : a < 2 ^ 32
  · simpa [Memory.byte, wrapAddr_of_lt ha] using h a
  · rw [Memory.lookup_of_not_mem, Memory.lookup_of_not_mem]
    · intro x hx; have := ((Memory.wf_iff.mp hn).1 x hx).1; omega
    · intro x hx; have := ((Memory.wf_iff.mp hm).1 x hx).1; omega

end Sys2Proof.Machine
end

