-- ==== Sys2Proof/Laws/Elements.lean ====
section
/-! SUPPORT. Elements of memory: narrowing, a load after a store, and what storing at a list of positions does. -/

namespace Sys2Proof.Machine

/-! ### Narrowing -/

theorem zext_lt (n : Nat) (v : Int) : zext n v < 2 ^ n := by
  have h0 : (0 : Int) < 2 ^ n := by positivity
  have h1 := Int.emod_nonneg v h0.ne'
  have h2 := Int.emod_lt_of_pos v h0
  unfold zext
  zify
  rw [Int.toNat_of_nonneg h1]
  exact h2

theorem zext_cast (n : Nat) (v : Int) : (zext n v : Int) = v % 2 ^ n :=
  Int.toNat_of_nonneg (Int.emod_nonneg v (by positivity))

/-- Zero extension keeps a value that fits. -/
theorem zext_of_fits {n : Nat} {v : Int} (h0 : 0 ≤ v) (h1 : v < 2 ^ n) : (zext n v : Int) = v := by
  rw [zext_cast, Int.emod_eq_of_lt h0 h1]

/-- Sixteen-bit two's complement keeps a value that fits. -/
theorem sext_zext16 {v : Int} (h0 : -32768 ≤ v) (h1 : v ≤ 32767) : sext 16 (zext 16 v) = v := by
  unfold sext
  simp only [zext_cast]
  norm_num
  omega

theorem sext16_range (v : Int) : -32768 ≤ sext 16 v ∧ sext 16 v ≤ 32767 := by
  unfold sext
  norm_num
  split <;> omega

theorem sext16_zext16_sext16 (v : Int) : sext 16 (zext 16 (sext 16 v)) = sext 16 v :=
  sext_zext16 (sext16_range v).1 (sext16_range v).2

theorem ofNat8_toNat (v : Nat) : (BitVec.ofNat 8 v).toNat = v % 256 := by simp

/-! ### Loading and storing one element -/

theorem ElemSize.bytes_pos (es : ElemSize) : 0 < es.bytes := by cases es <;> decide

theorem ElemSize.bytes_le (es : ElemSize) : es.bytes ≤ 2 := by cases es <;> decide

theorem wrapAddr_succ_ne (a : Nat) : wrapAddr (a + 1) ≠ wrapAddr a := by
  simp only [wrapAddr, Config.addrSpace, Config.addrBits]; omega

theorem Memory.load_one (m : Memory) (a : Nat) : m.load .one a = (m.byte a).toNat := rfl

theorem Memory.load_two (m : Memory) (a : Nat) :
    m.load .two a = (m.byte a).toNat + 256 * (m.byte (a + 1)).toNat := rfl

theorem Memory.load_lt (m : Memory) (es : ElemSize) (a : Nat) : m.load es a < 2 ^ (8 * es.bytes) := by
  cases es
  · simpa [Memory.load, ElemSize.bytes] using (m.byte a).isLt
  · have h1 := (m.byte a).isLt
    have h2 := (m.byte (a + 1)).isLt
    simp only [Memory.load, ElemSize.bytes]
    omega

/-- A load sees only the element's own bytes. -/
theorem Memory.load_congr {m n : Memory} {es : ElemSize} {a : Nat}
    (h : ∀ k < es.bytes, m.byte (a + k) = n.byte (a + k)) : m.load es a = n.load es a := by
  cases es
  · simp [Memory.load, show m.byte a = n.byte a from h 0 (by decide)]
  · simp [Memory.load, show m.byte a = n.byte a from h 0 (by decide), h 1 (by decide)]

theorem Memory.load_wrapAddr (m : Memory) (es : ElemSize) (a : Nat) : m.load es (wrapAddr a) = m.load es a := by
  have h : m.byte (wrapAddr a + 1) = m.byte (a + 1) := Memory.byte_congr m (wrapAddr_wrapAddr_add a 1)
  cases es <;> simp [Memory.load, h]

/-- A store leaves every byte outside its element as it was. -/
theorem Memory.byte_store_other (m : Memory) {es : ElemSize} {a b : Nat} (v : Nat)
    (h : ∀ k < es.bytes, wrapAddr b ≠ wrapAddr (a + k)) : (m.store es a v).byte b = m.byte b := by
  cases es
  · exact Memory.byte_setByte_other m _ (h 0 (by decide))
  · have h0 : wrapAddr b ≠ wrapAddr a := h 0 (by decide)
    have h1 := h 1 (by decide)
    simp only [Memory.store]
    rw [Memory.byte_setByte_other _ _ h1, Memory.byte_setByte_other _ _ h0]

/-- A load after a store to the same address gives the low bits of the value stored (20_memory.md R52). -/
theorem Memory.load_store_same (m : Memory) (es : ElemSize) (a v : Nat) :
    (m.store es a v).load es a = v % 2 ^ (8 * es.bytes) := by
  cases es
  · simp [Memory.load, Memory.store, ElemSize.bytes]
  · simp only [Memory.load, Memory.store, ElemSize.bytes, Memory.byte_setByte_same]
    rw [Memory.byte_setByte_other _ _ (wrapAddr_succ_ne a).symm, Memory.byte_setByte_same]
    simp only [ofNat8_toNat]
    omega

theorem Memory.wf_store {m : Memory} (es : ElemSize) (a v : Nat) (h : m.wf = true) : (m.store es a v).wf = true := by
  cases es
  · exact Memory.wf_setByte _ _ h
  · exact Memory.wf_setByte _ _ (Memory.wf_setByte _ _ h)

theorem Memory.wf_storeValue {m : Memory} (es : ElemSize) (a : Nat) (v : Int) (h : m.wf = true) :
    (m.storeValue es a v).wf = true := Memory.wf_store _ _ _ h

theorem Memory.byte_storeValue_other (m : Memory) {es : ElemSize} {a b : Nat} (v : Int)
    (h : ∀ k < es.bytes, wrapAddr b ≠ wrapAddr (a + k)) : (m.storeValue es a v).byte b = m.byte b :=
  Memory.byte_store_other m _ h

theorem Memory.load_storeValue_same (m : Memory) (es : ElemSize) (a : Nat) (v : Int) :
    (m.storeValue es a v).load es a = zext (8 * es.bytes) v := by
  rw [Memory.storeValue, Memory.load_store_same, Nat.mod_eq_of_lt (zext_lt _ _)]

/-! ### Storing at a list of positions -/

/-- The elements at two positions of a plane share no byte. -/
def Plane.Sep (p : Plane) (x y : Nat × Nat) : Prop :=
  ∀ k < p.size.bytes, ∀ k' < p.size.bytes, wrapAddr (p.addr x.1 x.2 + k) ≠ wrapAddr (p.addr y.1 y.2 + k')

theorem storeAt_nil (p : Plane) (val : Nat → Nat → Int) (m : Memory) : storeAt p val [] m = m := rfl

theorem storeAt_cons (p : Plane) (val : Nat → Nat → Int) (q : Nat × Nat) (ps : List (Nat × Nat)) (m : Memory) :
    storeAt p val (q :: ps) m = storeAt p val ps (m.storeValue p.size (p.addr q.1 q.2) (val q.1 q.2)) := rfl

theorem storeAt_wf {p : Plane} {val : Nat → Nat → Int} {ps : List (Nat × Nat)} {m : Memory} (h : m.wf = true) :
    (storeAt p val ps m).wf = true := by
  induction ps generalizing m with
  | nil => exact h
  | cons q ps ih => exact ih (Memory.wf_storeValue _ _ _ h)

/-- A byte of no element of the list is left as it was. -/
theorem byte_storeAt_other {p : Plane} {val : Nat → Nat → Int} {ps : List (Nat × Nat)} {m : Memory} {b : Nat}
    (h : ∀ q ∈ ps, ∀ k < p.size.bytes, wrapAddr b ≠ wrapAddr (p.addr q.1 q.2 + k)) :
    (storeAt p val ps m).byte b = m.byte b := by
  induction ps generalizing m with
  | nil => rfl
  | cons q ps ih =>
    rw [storeAt_cons, ih fun x hx => h x (by simp [hx])]
    exact Memory.byte_storeValue_other m _ (h q (by simp))

/-- An element apart from every element of the list is left as it was. -/
theorem load_storeAt_other {p : Plane} {val : Nat → Nat → Int} {ps : List (Nat × Nat)} {m : Memory}
    {x : Nat × Nat} (h : ∀ q ∈ ps, p.Sep x q) :
    (storeAt p val ps m).load p.size (p.addr x.1 x.2) = m.load p.size (p.addr x.1 x.2) :=
  Memory.load_congr fun k hk => byte_storeAt_other fun q hq k' hk' => h q hq k hk k' hk'

/-- An element of the list that is apart from the others holds what was stored there. -/
theorem load_storeAt_mem {p : Plane} {val : Nat → Nat → Int} {ps : List (Nat × Nat)} {m : Memory} {x : Nat × Nat}
    (hx : x ∈ ps) (h : ∀ q ∈ ps, q ≠ x → p.Sep x q) :
    (storeAt p val ps m).load p.size (p.addr x.1 x.2) = zext (8 * p.size.bytes) (val x.1 x.2) := by
  induction ps generalizing m with
  | nil => simp at hx
  | cons q ps ih =>
    rw [storeAt_cons]
    by_cases hin : x ∈ ps
    · exact ih hin fun y hy => h y (by simp [hy])
    · have hq : q = x := by simpa [hin, eq_comm] using hx
      subst hq
      rw [load_storeAt_other, Memory.load_storeValue_same]
      intro y hy
      exact h y (by simp [hy]) fun e => hin (e ▸ hy)

end Sys2Proof.Machine
end

