-- ==== Sys2Proof/Laws/Blocks.lean ====
section
/-! SUPPORT. Blocks and regions: the executable checks over regions say what 20_memory.md R57 to R60 say of bytes, and
storing a block writes each element and nothing else. -/

namespace Sys2Proof.Machine

theorem wrapAddr_eq (a : Nat) : wrapAddr a = a % 2 ^ 32 := rfl

theorem Plane.addr_lt (p : Plane) (r c : Nat) : p.addr r c < 2 ^ 32 := wrapAddr_lt _

theorem Plane.wrapAddr_addr (p : Plane) (r c : Nat) : wrapAddr (p.addr r c) = p.addr r c := wrapAddr_wrapAddr _

/-! ### Positions -/

@[simp] theorem mem_positions {w h : Nat} {p : Nat × Nat} : p ∈ positions w h ↔ p.1 < h ∧ p.2 < w := by
  obtain ⟨r, c⟩ := p
  simp only [positions, List.mem_flatMap, List.mem_range, List.mem_map, Prod.mk.injEq]
  constructor
  · rintro ⟨r', hr, c', hc, rfl, rfl⟩; exact ⟨hr, hc⟩
  · rintro ⟨hr, hc⟩; exact ⟨r, hr, c, hc, rfl, rfl⟩

theorem positions_nodup (w h : Nat) : (positions w h).Nodup := by
  rw [positions, List.nodup_flatMap]
  refine ⟨fun r _ => List.nodup_range.map fun a b hab => by simpa using hab, ?_⟩
  refine (List.nodup_range (n := h)).imp ?_
  rintro r r' hrr' x hx hx'
  simp only [List.mem_map] at hx hx'
  obtain ⟨_, _, rfl⟩ := hx
  obtain ⟨_, _, h2⟩ := hx'
  exact hrr' (by simpa using congrArg Prod.fst h2.symm)

theorem positions_length (w h : Nat) : (positions w h).length = w * h := by
  simp [positions, List.length_flatMap, Nat.mul_comm]

/-! ### Regions -/

theorem Plane.mem_elemBytes {p : Plane} {r c a : Nat} :
    a ∈ p.elemBytes r c ↔ ∃ k < p.size.bytes, a = wrapAddr (p.addr r c + k) := by
  simp [Plane.elemBytes, eq_comm]

/-- The region list holds exactly the bytes the access touches (20_memory.md R57). -/
theorem Access.mem_region {x : Access} {a : Nat} : a ∈ x.region ↔ x.Touches a := by
  simp only [Access.region, List.mem_flatMap, mem_positions, Plane.mem_elemBytes, Access.Touches, wrapAddr_eq]
  constructor
  · rintro ⟨⟨r, c⟩, ⟨hr, hc⟩, k, hk, rfl⟩; exact ⟨r, c, k, hr, hc, hk, rfl⟩
  · rintro ⟨r, c, k, hr, hc, hk, rfl⟩; exact ⟨(r, c), ⟨hr, hc⟩, k, hk, rfl⟩

theorem Access.Touches.lt {x : Access} {a : Nat} (h : x.Touches a) : a < 2 ^ 32 := by
  obtain ⟨r, c, k, _, _, _, rfl⟩ := h
  exact Nat.mod_lt _ (by decide)

/-- The overlap check is 20_memory.md R58's. -/
theorem Access.meets_eq_false {x y : Access} : x.meets y = false ↔ x.Apart y := by
  simp [Access.meets, Access.Apart, Access.mem_region]

theorem Plane.elemBytes_nodup (p : Plane) (r c : Nat) : (p.elemBytes r c).Nodup := by
  refine List.Nodup.map_on ?_ List.nodup_range
  intro k hk k' hk' h
  have := p.size.bytes_le
  simp only [List.mem_range] at hk hk'
  simp only [wrapAddr, Config.addrSpace, Config.addrBits] at h
  omega

/-- The folding check is 20_memory.md R59's. -/
theorem Access.folds_eq_false {x : Access} : x.folds = false ↔ x.Unfolded := by
  have hnodup : x.folds = false ↔ x.region.Nodup := by simp [Access.folds]
  rw [hnodup, Access.region, List.nodup_flatMap]
  have hperm : (positions x.w x.h).Pairwise (· ≠ ·) := positions_nodup x.w x.h
  constructor
  · rintro ⟨-, hp⟩ r c r' c' k k' hr hc hr' hc' hk hk' heq
    by_contra hne
    have hne' : (r, c) ≠ (r', c') := by simpa using hne
    have hsym : Std.Symm (Function.onFun List.Disjoint fun p : Nat × Nat => x.plane.elemBytes p.1 p.2) :=
      ⟨fun a b hab => List.Disjoint.symm hab⟩
    have hd := hp.forall (show (r, c) ∈ positions x.w x.h by simp [hr, hc])
      (show (r', c') ∈ positions x.w x.h by simp [hr', hc']) hne'
    exact hd (Plane.mem_elemBytes.mpr ⟨k, hk, rfl⟩) (Plane.mem_elemBytes.mpr ⟨k', hk', heq⟩)
  · intro hu
    refine ⟨fun q _ => Plane.elemBytes_nodup _ _ _, ?_⟩
    refine List.Pairwise.imp_of_mem ?_ hperm
    rintro ⟨r, c⟩ ⟨r', c'⟩ hm hm' hne a ha ha'
    rw [mem_positions] at hm hm'
    obtain ⟨k, hk, rfl⟩ := Plane.mem_elemBytes.mp ha
    obtain ⟨k', hk', heq⟩ := Plane.mem_elemBytes.mp ha'
    obtain ⟨h1, h2⟩ := hu r c r' c' k k' hm.1 hm.2 hm'.1 hm'.2 hk hk' heq
    exact hne (by rw [h1, h2])

/-- The mapping check is 20_memory.md R60's. -/
theorem State.mappedAll_eq_true {s : State} {x : Access} : s.mappedAll x = true ↔ s.Maps x := by
  simp [State.mappedAll, State.Maps, Access.mem_region]

/-! ### Storing a block -/

theorem Access.storeAll_wf {x : Access} {val : Nat → Nat → Int} {m : Memory} (h : m.wf = true) :
    (x.storeAll val m).wf = true := storeAt_wf h

/-- A byte the access does not touch is left as it was (20_memory.md R68). -/
theorem Access.byte_storeAll_other {x : Access} {val : Nat → Nat → Int} {m : Memory} {a : Nat} (ha : a < 2 ^ 32)
    (h : ¬ x.Touches a) : (x.storeAll val m).byte a = m.byte a := by
  refine byte_storeAt_other fun q hq k hk heq => h ?_
  rw [mem_positions] at hq
  rw [wrapAddr_of_lt ha] at heq
  exact ⟨q.1, q.2, k, hq.1, hq.2, hk, by rw [heq, wrapAddr_eq]⟩

theorem Access.Unfolded.sep {x : Access} (hu : x.Unfolded) {p q : Nat × Nat} (hp : p ∈ positions x.w x.h)
    (hq : q ∈ positions x.w x.h) (hne : q ≠ p) : x.plane.Sep p q := by
  rw [mem_positions] at hp hq
  intro k hk k' hk' heq
  obtain ⟨h1, h2⟩ := hu _ _ _ _ k k' hp.1 hp.2 hq.1 hq.2 hk hk' heq
  exact hne (Prod.ext h1.symm h2.symm)

/-- Every element of an unfolded block holds what was stored there. -/
theorem Access.get_storeAll {x : Access} {val : Nat → Nat → Int} {m : Memory} (hu : x.Unfolded) {r c : Nat}
    (hr : r < x.h) (hc : c < x.w) :
    x.plane.get (x.storeAll val m) r c = zext (8 * x.plane.size.bytes) (val r c) := by
  have hm : (r, c) ∈ positions x.w x.h := by simp [hr, hc]
  have := load_storeAt_mem (p := x.plane) (val := val) (m := m) hm fun q hq hne => hu.sep hm hq hne
  exact this

/-- A plane that touches no byte of the block is read as before. -/
theorem Plane.get_storeAll_apart {p : Plane} {x : Access} {val : Nat → Nat → Int} {m : Memory} {r c : Nat}
    (h : ∀ k < p.size.bytes, ¬ x.Touches (wrapAddr (p.addr r c + k))) :
    p.get (x.storeAll val m) r c = p.get m r c := by
  refine Memory.load_congr fun k hk => ?_
  rw [← Memory.byte_wrapAddr, ← Memory.byte_wrapAddr m]
  exact Access.byte_storeAll_other (wrapAddr_lt _) (h k hk)

/-! ### The size dispatch -/

theorem catalog_length : catalog.length = 19 := rfl

/-- The index counts modulo the table length (43_size_dispatch_mux.md R134). -/
theorem resolve_mod (txs : Nat) : resolve txs = resolve (txs % 19) := by
  simp [resolve, catalog_length]

/-- A block's size is an entry of the catalog with no side above 32 (43_size_dispatch_mux.md R131, R135). -/
theorem resolve_mem_catalog {txs w h : Nat} (hk : resolve txs = .block w h) :
    (w, h) ∈ catalog ∧ w ≤ Config.maxDim ∧ h ≤ Config.maxDim := by
  unfold resolve at hk
  split at hk
  · rename_i w' h' he
    split at hk
    · cases hk
      exact ⟨List.mem_of_getElem? he, ‹_›⟩
    · cases hk
  · cases hk

/-- The sizes a block can have (43_size_dispatch_mux.md R131). -/
theorem resolve_sizes {txs w h : Nat} (hk : resolve txs = .block w h) :
    (w, h) ∈ [(4, 4), (8, 8), (16, 16), (32, 32), (4, 8), (8, 4), (8, 16), (16, 8), (16, 32), (32, 16), (4, 16),
      (16, 4), (8, 32), (32, 8)] := by
  have sizes : ∀ p ∈ catalog, p.1 ≤ Config.maxDim → p.2 ≤ Config.maxDim →
      p ∈ [(4, 4), (8, 8), (16, 16), (32, 32), (4, 8), (8, 4), (8, 16), (16, 8), (16, 32), (32, 16), (4, 16),
        (16, 4), (8, 32), (32, 8)] := by decide
  obtain ⟨hm, hw, hh⟩ := resolve_mem_catalog hk
  exact sizes _ hm hw hh

theorem resolve_le {txs w h : Nat} (hk : resolve txs = .block w h) : 4 ≤ w ∧ w ≤ 32 ∧ 4 ≤ h ∧ h ≤ 32 := by
  have sides : ∀ p ∈ catalog, 4 ≤ p.1 ∧ 4 ≤ p.2 := by decide
  obtain ⟨hm, hw, hh⟩ := resolve_mem_catalog hk
  exact ⟨(sides _ hm).1, hw, (sides _ hm).2, hh⟩

/-! ### The Q3 buffer -/

/-- The bytes of the Q3 buffer's elements lie at distinct offsets below 2048 (20_memory.md R54, R59). -/
theorem State.q3_addr (s : State) (r c : Nat) : s.q3Plane.addr r c = (s.q3Base.toNat + 64 * r + 2 * c) % 2 ^ 32 := by
  simp only [State.q3Plane, Plane.addr, wrapAddr_eq, ElemSize.bytes, Config.q3Stride, BitVec.toNat_ofNat]
  congr 1
  omega

/-- The Q3 buffer never folds onto itself (20_memory.md R59, 90_conflicts.md C6). -/
theorem State.q3_unfolded (s : State) {w h : Nat} (hw : w ≤ 32) (hh : h ≤ 32) : (s.q3 w h).Unfolded := by
  intro r c r' c' k k' hr hc hr' hc' hk hk' heq
  simp only [State.q3] at *
  rw [State.q3_addr, State.q3_addr] at heq
  simp only [State.q3Plane, ElemSize.bytes] at hk hk'
  have := s.q3Base.isLt
  omega

end Sys2Proof.Machine
end

