-- ==== Sys2Proof/Laws/State.lean ====
section
/-! SUPPORT. One lemma per field per named update of the state, all true by rfl, so that no later proof unfolds one; and
what `HALT` and the refusal checks see of an update. -/

namespace Sys2Proof.Machine

/-! ### Taking a fault -/

@[simp] theorem takeFault_srcBase (s : State) (c : Cause) (v : Word) : (takeFault s c v).srcBase = s.srcBase := rfl
@[simp] theorem takeFault_srcStride (s : State) (c : Cause) (v : Word) : (takeFault s c v).srcStride = s.srcStride := rfl
@[simp] theorem takeFault_dstBase (s : State) (c : Cause) (v : Word) : (takeFault s c v).dstBase = s.dstBase := rfl
@[simp] theorem takeFault_dstStride (s : State) (c : Cause) (v : Word) : (takeFault s c v).dstStride = s.dstStride := rfl
@[simp] theorem takeFault_q3Base (s : State) (c : Cause) (v : Word) : (takeFault s c v).q3Base = s.q3Base := rfl
@[simp] theorem takeFault_status (s : State) (c : Cause) (v : Word) : (takeFault s c v).status = c.status := rfl
@[simp] theorem takeFault_finfo (s : State) (c : Cause) (v : Word) : (takeFault s c v).finfo = v := rfl
@[simp] theorem takeFault_bd (s : State) (c : Cause) (v : Word) : (takeFault s c v).bd = s.bd := rfl
@[simp] theorem takeFault_mem (s : State) (c : Cause) (v : Word) : (takeFault s c v).mem = s.mem := rfl
@[simp] theorem takeFault_unmapped (s : State) (c : Cause) (v : Word) : (takeFault s c v).unmapped = s.unmapped := rfl
@[simp] theorem takeFault_pending (s : State) (c : Cause) (v : Word) : (takeFault s c v).pending = s.pending := rfl
@[simp] theorem takeFault_returned (s : State) (c : Cause) (v : Word) : (takeFault s c v).returned = s.returned := rfl

/-! ### Reset -/

@[simp] theorem applyReset_srcBase (s : State) : (s.applyReset).srcBase = 0#32 := rfl
@[simp] theorem applyReset_srcStride (s : State) : (s.applyReset).srcStride = 0#32 := rfl
@[simp] theorem applyReset_dstBase (s : State) : (s.applyReset).dstBase = 0#32 := rfl
@[simp] theorem applyReset_dstStride (s : State) : (s.applyReset).dstStride = 0#32 := rfl
@[simp] theorem applyReset_q3Base (s : State) : (s.applyReset).q3Base = 0#32 := rfl
@[simp] theorem applyReset_status (s : State) : (s.applyReset).status = 0#32 := rfl
@[simp] theorem applyReset_finfo (s : State) : (s.applyReset).finfo = 0#32 := rfl
@[simp] theorem applyReset_bd (s : State) : (s.applyReset).bd = 0#32 := rfl
@[simp] theorem applyReset_mem (s : State) : (s.applyReset).mem = s.mem := rfl
@[simp] theorem applyReset_unmapped (s : State) : (s.applyReset).unmapped = s.unmapped := rfl
@[simp] theorem applyReset_pending (s : State) : (s.applyReset).pending = s.pending := rfl
@[simp] theorem applyReset_returned (s : State) : (s.applyReset).returned = s.returned := rfl

/-! ### A read's answer -/

@[simp] theorem answer_srcBase (s : State) (v : Word) : (s.answer v).srcBase = s.srcBase := rfl
@[simp] theorem answer_srcStride (s : State) (v : Word) : (s.answer v).srcStride = s.srcStride := rfl
@[simp] theorem answer_dstBase (s : State) (v : Word) : (s.answer v).dstBase = s.dstBase := rfl
@[simp] theorem answer_dstStride (s : State) (v : Word) : (s.answer v).dstStride = s.dstStride := rfl
@[simp] theorem answer_q3Base (s : State) (v : Word) : (s.answer v).q3Base = s.q3Base := rfl
@[simp] theorem answer_status (s : State) (v : Word) : (s.answer v).status = s.status := rfl
@[simp] theorem answer_finfo (s : State) (v : Word) : (s.answer v).finfo = s.finfo := rfl
@[simp] theorem answer_bd (s : State) (v : Word) : (s.answer v).bd = s.bd := rfl
@[simp] theorem answer_mem (s : State) (v : Word) : (s.answer v).mem = s.mem := rfl
@[simp] theorem answer_unmapped (s : State) (v : Word) : (s.answer v).unmapped = s.unmapped := rfl
@[simp] theorem answer_pending (s : State) (v : Word) : (s.answer v).pending = s.pending := rfl
@[simp] theorem answer_returned (s : State) (v : Word) : (s.answer v).returned = v :: s.returned := rfl

/-! ### The host's next command -/

@[simp] theorem withFetchWord_srcBase (s : State) (n w : Nat) : (s.withFetchWord n w).srcBase = s.srcBase := rfl
@[simp] theorem withFetchWord_srcStride (s : State) (n w : Nat) : (s.withFetchWord n w).srcStride = s.srcStride := rfl
@[simp] theorem withFetchWord_dstBase (s : State) (n w : Nat) : (s.withFetchWord n w).dstBase = s.dstBase := rfl
@[simp] theorem withFetchWord_dstStride (s : State) (n w : Nat) : (s.withFetchWord n w).dstStride = s.dstStride := rfl
@[simp] theorem withFetchWord_q3Base (s : State) (n w : Nat) : (s.withFetchWord n w).q3Base = s.q3Base := rfl
@[simp] theorem withFetchWord_status (s : State) (n w : Nat) : (s.withFetchWord n w).status = s.status := rfl
@[simp] theorem withFetchWord_finfo (s : State) (n w : Nat) : (s.withFetchWord n w).finfo = s.finfo := rfl
@[simp] theorem withFetchWord_bd (s : State) (n w : Nat) : (s.withFetchWord n w).bd = s.bd := rfl
@[simp] theorem withFetchWord_mem (s : State) (n w : Nat) : (s.withFetchWord n w).mem = s.mem := rfl
@[simp] theorem withFetchWord_unmapped (s : State) (n w : Nat) : (s.withFetchWord n w).unmapped = s.unmapped := rfl
@[simp] theorem withFetchWord_pending (s : State) (n w : Nat) : (s.withFetchWord n w).pending = .command (BitVec.ofNat 32 (w % 2 ^ n)) :: s.pending := rfl
@[simp] theorem withFetchWord_returned (s : State) (n w : Nat) : (s.withFetchWord n w).returned = s.returned := rfl

/-! ### Power-up -/

@[simp] theorem powerUp_srcBase (m : Memory) (u : List AddrRange) : (State.powerUp m u).srcBase = 0#32 := rfl
@[simp] theorem powerUp_srcStride (m : Memory) (u : List AddrRange) : (State.powerUp m u).srcStride = 0#32 := rfl
@[simp] theorem powerUp_dstBase (m : Memory) (u : List AddrRange) : (State.powerUp m u).dstBase = 0#32 := rfl
@[simp] theorem powerUp_dstStride (m : Memory) (u : List AddrRange) : (State.powerUp m u).dstStride = 0#32 := rfl
@[simp] theorem powerUp_q3Base (m : Memory) (u : List AddrRange) : (State.powerUp m u).q3Base = 0#32 := rfl
@[simp] theorem powerUp_status (m : Memory) (u : List AddrRange) : (State.powerUp m u).status = 0#32 := rfl
@[simp] theorem powerUp_finfo (m : Memory) (u : List AddrRange) : (State.powerUp m u).finfo = 0#32 := rfl
@[simp] theorem powerUp_bd (m : Memory) (u : List AddrRange) : (State.powerUp m u).bd = 0#32 := rfl
@[simp] theorem powerUp_mem (m : Memory) (u : List AddrRange) : (State.powerUp m u).mem = m := rfl
@[simp] theorem powerUp_unmapped (m : Memory) (u : List AddrRange) : (State.powerUp m u).unmapped = u := rfl
@[simp] theorem powerUp_pending (m : Memory) (u : List AddrRange) : (State.powerUp m u).pending = [] := rfl
@[simp] theorem powerUp_returned (m : Memory) (u : List AddrRange) : (State.powerUp m u).returned = [] := rfl

/-! ### What the derived reads see -/

theorem halted_of_status {s t : State} (h : s.status = t.status) : s.halted = t.halted := by simp [State.halted, h]

@[simp] theorem takeFault_halted (s : State) (c : Cause) (v : Word) : (takeFault s c v).halted = true := by
  rw [State.halted, takeFault_status]
  cases c <;> decide

@[simp] theorem takeFault_cause (s : State) (c : Cause) (v : Word) : (takeFault s c v).cause = c.code := by
  rw [State.cause, takeFault_status]
  cases c <;> decide

@[simp] theorem applyReset_halted (s : State) : s.applyReset.halted = false := by
  rw [State.halted, applyReset_status]
  decide

@[simp] theorem reset_halted : State.reset.halted = false := by decide

@[simp] theorem mapped_withMem (s : State) (m : Memory) : { s with mem := m }.mapped = s.mapped := rfl

@[simp] theorem halted_withMem (s : State) (m : Memory) : { s with mem := m }.halted = s.halted := rfl

@[simp] theorem depth_withMem (s : State) (m : Memory) : { s with mem := m }.depth = s.depth := rfl

@[simp] theorem q3Plane_withMem (s : State) (m : Memory) : { s with mem := m }.q3Plane = s.q3Plane := rfl

@[simp] theorem srcPlane_withMem (s : State) (m : Memory) : { s with mem := m }.srcPlane = s.srcPlane := rfl

@[simp] theorem dstPlane_withMem (s : State) (m : Memory) : { s with mem := m }.dstPlane = s.dstPlane := rfl

end Sys2Proof.Machine
end

