-- ==== Sys2Proof/Laws/Commands.lean ====
section
/-! SUPPORT. What each shared operation of the commands can do, said once: `runCommand`, `runWriting`, `compareTwins`, a
command as a whole, a command word, a host action, a step. -/

namespace Sys2Proof.Machine

/-! ### The dispatch stage -/

theorem runCommand_halted {s : State} (h : s.halted = true) (txs : Nat) (k : Nat → Nat → Result) :
    runCommand s txs k = .next s := by simp [runCommand, h]

theorem runCommand_noOp {s : State} {txs : Nat} (h : resolve txs = .noOp) (k : Nat → Nat → Result) :
    runCommand s txs k = .next s := by simp [runCommand, h]

theorem runCommand_block {s : State} {txs w h : Nat} (hs : s.halted = false) (hk : resolve txs = .block w h)
    (k : Nat → Nat → Result) : runCommand s txs k = k w h := by simp [runCommand, hs, hk]

/-- A command that answers a next state did nothing, or its kernel answered it. -/
theorem runCommand_next {s t : State} {txs : Nat} {k : Nat → Nat → Result} (h : runCommand s txs k = .next t) :
    t = s ∨ ∃ w h, s.halted = false ∧ resolve txs = .block w h ∧ k w h = .next t := by
  unfold runCommand at h
  split at h
  · exact .inl (by cases h; rfl)
  · rename_i hh
    split at h
    · exact .inl (by cases h; rfl)
    · exact .inr ⟨_, _, by simpa using hh, ‹_›, h⟩

/-! ### The writing kernels -/

/-- The refusals of a writing kernel are its only stops, and it completes exactly without them. -/
theorem runWriting_next_iff {s t : State} {out : Access} {others : List Access} {ov ok : Bool}
    {val : Nat → Nat → Int} : runWriting s out others ov ok val = .next t ↔
      (s.Maps out ∧ ∀ x ∈ others, s.Maps x) ∧ ov = false ∧ ok = true ∧ t = { s with mem := out.storeAll val s.mem } := by
  unfold runWriting
  by_cases h1 : (out :: others).all s.mappedAll = true
  · have h1' : s.Maps out ∧ ∀ x ∈ others, s.Maps x := by
      simpa [List.all_cons, State.mappedAll_eq_true] using h1
    rw [and_iff_right h1']
    cases ov <;> cases ok <;> simp [h1, eq_comm]
  · have h1' : ¬ (s.Maps out ∧ ∀ x ∈ others, s.Maps x) := by
      simpa [List.all_cons, State.mappedAll_eq_true] using h1
    simp only [Bool.not_eq_true] at h1
    simp [h1, h1']

theorem runWriting_unmapped_iff {s : State} {out : Access} {others : List Access} {ov ok : Bool}
    {val : Nat → Nat → Int} : runWriting s out others ov ok val = .refused .unmapped ↔
      ¬ (s.Maps out ∧ ∀ x ∈ others, s.Maps x) := by
  unfold runWriting
  by_cases h1 : (out :: others).all s.mappedAll = true
  · have h1' : s.Maps out ∧ ∀ x ∈ others, s.Maps x := by
      simpa [List.all_cons, State.mappedAll_eq_true] using h1
    refine iff_of_false ?_ (not_not.mpr h1')
    cases ov <;> cases ok <;> simp [h1]
  · have h1' : ¬ (s.Maps out ∧ ∀ x ∈ others, s.Maps x) := by
      simpa [List.all_cons, State.mappedAll_eq_true] using h1
    simp only [Bool.not_eq_true] at h1
    simp [h1, h1']

theorem runWriting_overlap {s : State} {out : Access} {others : List Access} {ok : Bool} {val : Nat → Nat → Int}
    (hm : s.Maps out ∧ ∀ x ∈ others, s.Maps x) : runWriting s out others true ok val = .refused .overlap := by
  have h1 : (out :: others).all s.mappedAll = true := by simpa [List.all_cons, State.mappedAll_eq_true] using hm
  simp [runWriting, h1]

theorem runWriting_range {s : State} {out : Access} {others : List Access} {val : Nat → Nat → Int}
    (hm : s.Maps out ∧ ∀ x ∈ others, s.Maps x) : runWriting s out others false false val = .refused .range := by
  have h1 : (out :: others).all s.mappedAll = true := by simpa [List.all_cons, State.mappedAll_eq_true] using hm
  simp [runWriting, h1]

/-! ### What stored elements read as -/

theorem q3_size (s : State) (w h : Nat) : (s.q3 w h).plane.size = .two := rfl

/-- The Q3 samples after storing a block of values that fit. -/
theorem q3Sample_storeAll {s : State} {w h : Nat} {val : Nat → Nat → Int} (hw : w ≤ 32) (hh : h ≤ 32) {r c : Nat}
    (hr : r < h) (hc : c < w) (hlo : -32768 ≤ val r c) (hhi : val r c ≤ 32767) :
    { s with mem := (s.q3 w h).storeAll val s.mem }.q3Sample r c = val r c := by
  have hg := Access.get_storeAll (x := s.q3 w h) (val := val) (m := s.mem) (s.q3_unfolded hw hh) hr hc
  have hs : { s with mem := (s.q3 w h).storeAll val s.mem }.q3Sample r c =
      sext 16 ((s.q3 w h).plane.get ((s.q3 w h).storeAll val s.mem) r c : Nat) := rfl
  rw [hs, hg]
  exact sext_zext16 hlo hhi

/-- The destination samples after storing a block of values that fit an unfolded plane. -/
theorem dstSample_storeAll {s : State} {size : ElemSize} {w h : Nat} {val : Nat → Nat → Int}
    (hu : (s.dst size w h).Unfolded) {r c : Nat} (hr : r < h) (hc : c < w) (hlo : 0 ≤ val r c)
    (hhi : val r c < 2 ^ (8 * size.bytes)) :
    { s with mem := (s.dst size w h).storeAll val s.mem }.dstSample size r c = val r c := by
  have hg := Access.get_storeAll (x := s.dst size w h) (val := val) (m := s.mem) hu hr hc
  have hs : { s with mem := (s.dst size w h).storeAll val s.mem }.dstSample size r c =
      (((s.dst size w h).plane.get ((s.dst size w h).storeAll val s.mem) r c : Nat) : Int) := rfl
  rw [hs, hg]
  exact zext_of_fits hlo hhi

/-! ### The comparator -/

/-- A compare that answers a next state found the buffers equal, or took the fault at its first mismatch. -/
theorem compareTwins_next_iff {s t : State} {size : ElemSize} {w h : Nat} : compareTwins size s w h = .next t ↔
    (s.Maps (s.twinA size w h) ∧ s.Maps (s.twinB size w h)) ∧
      ((s.firstMismatch size w h = none ∧ t = s) ∨
        ∃ r c, s.firstMismatch size w h = some (r, c) ∧ t = takeFault s .parityMismatch (mismatchInfo r c)) := by
  unfold compareTwins
  by_cases h1 : [s.twinA size w h, s.twinB size w h].all s.mappedAll = true
  · have h1' : s.Maps (s.twinA size w h) ∧ s.Maps (s.twinB size w h) := by
      simpa [State.mappedAll_eq_true] using h1
    simp only [h1, Bool.not_true, Bool.false_eq_true, if_false, h1', true_and]
    cases hf : s.firstMismatch size w h with
    | none => simp [eq_comm]
    | some p => obtain ⟨r, c⟩ := p; simp [eq_comm]
  · have h1' : ¬ (s.Maps (s.twinA size w h) ∧ s.Maps (s.twinB size w h)) := by
      simpa [State.mappedAll_eq_true] using h1
    simp only [Bool.not_eq_true] at h1
    simp [h1, h1']

theorem firstMismatch_some {s : State} {size : ElemSize} {w h r c : Nat} (hf : s.firstMismatch size w h = some (r, c)) :
    r < h ∧ c < w ∧ s.twinsDiffer size r c = true := by
  have h1 := List.mem_of_find?_eq_some hf
  have h2 := List.find?_some hf
  rw [mem_positions] at h1
  exact ⟨h1.1, h1.2, h2⟩

theorem firstMismatch_none {s : State} {size : ElemSize} {w h : Nat} :
    s.firstMismatch size w h = none ↔ ∀ r c, r < h → c < w → s.twinsDiffer size r c = false := by
  simp [State.firstMismatch, List.find?_eq_none]

/-! ### A command as a whole -/

/-- Everything a command that answers a next state can have done: nothing; stored a block in its own write region; or
taken the fault of a mismatch inside its block. -/
theorem exec_next_cases {i : Instr} {s t : State} (h : exec i s = .next t) :
    t = s ∨
    (∃ w h x val, s.halted = false ∧ resolve i.txs = .block w h ∧ commandWrites i s w h = some x ∧ s.Maps x ∧
      t = { s with mem := x.storeAll val s.mem }) ∨
    (∃ w h r c, s.halted = false ∧ resolve i.txs = .block w h ∧ r < h ∧ c < w ∧
      t = takeFault s .parityMismatch (mismatchInfo r c)) := by
  have writing : ∀ {txs : Nat} {k : Nat → Nat → Result} {out : Nat → Nat → Access}, i.txs = txs →
      (∀ w h, commandWrites i s w h = some (out w h)) → runCommand s txs k = .next t →
      (∀ w h, ∃ others ov ok val, k w h = runWriting s (out w h) others ov ok val) →
      t = s ∨ ∃ w h x val, s.halted = false ∧ resolve i.txs = .block w h ∧ commandWrites i s w h = some x ∧ s.Maps x ∧
        t = { s with mem := x.storeAll val s.mem } := by
    intro txs k out ht hw hr hk
    rcases runCommand_next hr with rfl | ⟨w, hgt, hh, hres, hkn⟩
    · exact .inl rfl
    · obtain ⟨others, ov, ok, val, he⟩ := hk w hgt
      rw [he, runWriting_next_iff] at hkn
      exact .inr ⟨w, hgt, out w hgt, val, hh, ht ▸ hres, hw w hgt, hkn.1.1, hkn.2.2.2⟩
  have comparing : ∀ {txs : Nat} {size : ElemSize}, i.txs = txs → runCommand s txs (compareTwins size s) = .next t →
      t = s ∨ ∃ w h r c, s.halted = false ∧ resolve i.txs = .block w h ∧ r < h ∧ c < w ∧
        t = takeFault s .parityMismatch (mismatchInfo r c) := by
    intro txs size ht hr
    rcases runCommand_next hr with rfl | ⟨w, hgt, hh, hres, hkn⟩
    · exact .inl rfl
    · rcases (compareTwins_next_iff.mp hkn).2 with ⟨_, rfl⟩ | ⟨r, c, hf, rfl⟩
      · exact .inl rfl
      · obtain ⟨h1, h2, _⟩ := firstMismatch_some hf
        exact .inr ⟨w, hgt, r, c, hh, ht ▸ hres, h1, h2, rfl⟩
  cases i with
  | cmpE8 txs => exact (comparing rfl h).imp_right .inr
  | cmpE16 txs => exact (comparing rfl h).imp_right .inr
  | _ => exact (writing rfl (fun _ _ => rfl) h fun _ _ => ⟨_, _, _, _, rfl⟩).imp_right .inl

/-- No command ends in a fault of the model: the spec's faults are next states (60_exceptions.md R154). -/
theorem Fault.elim_any {P : Prop} (f : Fault) : P := nomatch f

/-- What a command word can do (30_encoding.md R77). -/
theorem executeWord_cases (c : Word) (s : State) :
    (s.halted = true ∧ executeWord c s = .next s) ∨
    (s.halted = false ∧ ∃ i, decode c = .ok i ∧ executeWord c s = exec i s) ∨
    (s.halted = false ∧ ∃ e, decode c = .error e ∧ executeWord c s = .next (takeFault s .illegalCommand c)) := by
  unfold executeWord
  cases hs : s.halted
  · cases hd : decode c with
    | ok i => exact .inr (.inl ⟨rfl, i, rfl, by simp⟩)
    | error e => exact .inr (.inr ⟨rfl, e, rfl, by simp⟩)
  · exact .inl ⟨rfl, by simp⟩

/-- A command does nothing on a halted block, so a word that decodes does what its command does, halted or not. -/
theorem exec_halted {s : State} (h : s.halted = true) (i : Instr) : exec i s = .next s := by
  cases i <;> exact runCommand_halted h _ _

theorem executeWord_of_decode {c : Word} {i : Instr} (hd : decode c = .ok i) (s : State) :
    executeWord c s = exec i s := by
  unfold executeWord
  cases hs : s.halted
  · simp [hd]
  · simp [exec_halted hs]

/-- A step with an action waiting performs it; with none it leaves the state alone. -/
theorem step_cons {s : State} {a : HostAction} {rest : List HostAction} (h : s.pending = a :: rest) :
    step s = act a { s with pending := rest } := by simp [step, h]

theorem step_nil {s : State} (h : s.pending = []) : step s = .next s := by simp [step, h]

/-! ### The register port -/

/-- The map of 10_state.md R33 finds each register at its offset. -/
theorem Reg.at?_offset (r : Reg) : Reg.at? r.offset = some r := by cases r <;> rfl

theorem Reg.portShapeOk_offset (r : Reg) : portShapeOk Config.regBits r.offset = true := by cases r <;> rfl

/-- Performing a write to a register. -/
theorem act_wr (r : Reg) (v : Word) (s : State) : act (.wr r v) s = writeReg r v s := by
  simp only [HostAction.wr, act, Reg.portShapeOk_offset, if_true, Reg.at?_offset]

/-- Performing a read of a register. -/
theorem act_rd (r : Reg) (s : State) : act (.rd r) s = .next (s.answer (s.readReg r)) := by
  simp only [HostAction.rd, act, Reg.portShapeOk_offset, if_true, Reg.at?_offset]

/-- Performing a write of a word to `CMD`. -/
theorem act_command (c : Word) (s : State) : act (.command c) s = executeWord c s := act_wr .cmd c s

theorem Reg.at?_some {offset : Nat} {r : Reg} (h : Reg.at? offset = some r) : offset = r.offset := by
  have := List.find?_some h
  simpa [eq_comm] using this

/-- Everything a host action that answers a next state can have done: run a command word; stored a register; nothing, by
a write that the port ignores; returned a register's value or 0; stored a byte; returned a byte; reset the block. -/
theorem act_cases {a : HostAction} {s t : State} (h : act a s = .next t) :
    (∃ c, a = .command c ∧ executeWord c s = .next t) ∨
    (∃ r v, r ≠ .cmd ∧ a = .wr r v ∧ writeReg r v s = .next t) ∨
    (∃ bits offset v, a = .portWrite bits offset v ∧ t = s) ∨
    (∃ bits offset v, a = .portRead bits offset ∧ t = s.answer v) ∨
    (∃ b v, a = .memWrite b v ∧ s.mapped b.toNat = true ∧ t = { s with mem := s.mem.setByte b.toNat v }) ∨
    (∃ b, a = .memRead b ∧ s.mapped b.toNat = true ∧ t = s.answer ((s.mem.byte b.toNat).setWidth 32)) ∨
    (a = .reset ∧ t = s.applyReset) := by
  cases a with
  | reset => cases h; simp
  | memRead b =>
    simp only [act] at h
    split at h
    · cases h; simp [*]
    · cases h
  | memWrite b v =>
    simp only [act] at h
    split at h
    · cases h; simp [*]
    · cases h
  | portRead bits offset =>
    simp only [act] at h
    split at h
    · split at h
      · cases h; exact .inr (.inr (.inr (.inl ⟨_, _, _, rfl, rfl⟩)))
      · cases h; exact .inr (.inr (.inr (.inl ⟨_, _, _, rfl, rfl⟩)))
    · cases h
  | portWrite bits offset v =>
    simp only [act] at h
    split at h
    · rename_i hok
      split at h
      · rename_i r hr
        have hb : bits = Config.regBits := by
          simp only [portShapeOk, Bool.and_eq_true, decide_eq_true_eq] at hok
          exact hok.1
        rw [Reg.at?_some hr, hb]
        by_cases hc : r = .cmd
        · subst hc; exact .inl ⟨v, rfl, h⟩
        · exact .inr (.inl ⟨r, v, hc, rfl, h⟩)
      · cases h; exact .inr (.inr (.inl ⟨_, _, _, rfl, rfl⟩))
    · cases h

end Sys2Proof.Machine
end

