-- ==== Sys2Proof/Laws/Encoding.lean ====
section
/-! SUPPORT. The command word as arithmetic on its value: what a row's mask and match compare, what the operand fields
read, and what the encoder's three parts add up to. -/

namespace Sys2Proof

open Sys2Proof.Machine

theorem and_maskAlpha (c : Word) : (c &&& maskAlpha).toNat = c.toNat % 256 := by
  rw [BitVec.toNat_and]
  exact Nat.and_two_pow_sub_one_eq_mod c.toNat 8

theorem and_maskFixed (c : Word) : (c &&& maskFixed).toNat = c.toNat / 65536 * 65536 + c.toNat % 256 := by
  have h1 : c &&& maskFixed = ((c >>> 16) <<< 16) ||| (c &&& 0xFF#32) := by
    ext i hi
    simp only [maskFixed, BitVec.getElem_and, BitVec.getElem_or, BitVec.getElem_shiftLeft, BitVec.getElem_ushiftRight]
    interval_cases i <;>
      first
        | (simp [BitVec.getElem_eq_testBit_toNat]; done)
        | (simp [BitVec.getElem_eq_testBit_toNat]; generalize Nat.testBit (BitVec.toNat c) _ = b; cases b <;> rfl)
  have hc := c.isLt
  have h3 : (c.toNat &&& (0xFF#32).toNat) = c.toNat % 256 := Nat.and_two_pow_sub_one_eq_mod c.toNat 8
  have h4 : c.toNat / 2 ^ 16 * 2 ^ 16 % 2 ^ 32 = (c.toNat / 2 ^ 16) <<< 16 := by rw [Nat.shiftLeft_eq]; omega
  rw [h1, BitVec.toNat_or, BitVec.toNat_shiftLeft, BitVec.toNat_ushiftRight, BitVec.toNat_and, h3,
    Nat.shiftRight_eq_div_pow, Nat.shiftLeft_eq, h4, ← Nat.shiftLeft_add_eq_or_of_lt (by omega), Nat.shiftLeft_eq]
  norm_num

/-- A row without an `alpha` operand covers the words whose low byte is its match and whose upper half is 0. -/
theorem covers_fixed {p : Nat} (hp : p < 256) (b : Nat → Int → Instr) (c : Word) :
    (OpRow.mk maskFixed (BitVec.ofNat 32 p) b).covers c = true ↔ c.toNat % 256 = p ∧ c.toNat / 65536 = 0 := by
  simp only [OpRow.covers, decide_eq_true_eq]
  rw [← BitVec.toNat_inj, and_maskFixed, BitVec.toNat_ofNat]
  have := c.isLt
  omega

/-- A row with an `alpha` operand covers the words whose low byte is its match. -/
theorem covers_alpha {p : Nat} (hp : p < 256) (b : Nat → Int → Instr) (c : Word) :
    (OpRow.mk maskAlpha (BitVec.ofNat 32 p) b).covers c = true ↔ c.toNat % 256 = p := by
  simp only [OpRow.covers, decide_eq_true_eq]
  rw [← BitVec.toNat_inj, and_maskAlpha, BitVec.toNat_ofNat]
  omega

theorem txsField_eq (c : Word) : txsField c = c.toNat / 256 % 256 := by
  simp [txsField, slice, Nat.shiftRight_eq_div_pow]

theorem slice_alpha (c : Word) : slice c 31 16 = c.toNat / 65536 := by
  have := c.isLt
  simp only [slice, Nat.shiftRight_eq_div_pow]
  omega

theorem alphaField_eq (c : Word) : alphaField c = sext 16 (c.toNat / 65536 : Nat) := by
  rw [alphaField, slice_alpha]; rfl

/-- The three parts of an encoded word lie in separate bits, so they add up. -/
theorem word_parts {p t a : Nat} (hp : p < 256) (ht : t < 256) (ha : a < 65536) :
    (BitVec.ofNat 32 p ||| (BitVec.ofNat 32 t <<< 8) ||| (BitVec.ofNat 32 a <<< 16)).toNat =
      p + 256 * t + 65536 * a := by
  rw [BitVec.toNat_or, BitVec.toNat_or, BitVec.toNat_shiftLeft, BitVec.toNat_shiftLeft]
  simp only [BitVec.toNat_ofNat]
  have e1 : ((t % 2 ^ 32) <<< 8) % 2 ^ 32 = t <<< 8 := by rw [Nat.shiftLeft_eq, Nat.shiftLeft_eq]; omega
  have e2 : ((a % 2 ^ 32) <<< 16) % 2 ^ 32 = a <<< 16 := by rw [Nat.shiftLeft_eq, Nat.shiftLeft_eq]; omega
  rw [e1, e2, Nat.mod_eq_of_lt (by omega), Nat.or_comm p, ← Nat.shiftLeft_add_eq_or_of_lt (by omega), Nat.or_comm,
    ← Nat.shiftLeft_add_eq_or_of_lt (by rw [Nat.shiftLeft_eq]; omega), Nat.shiftLeft_eq, Nat.shiftLeft_eq]
  omega

theorem wf_txs {i : Instr} (h : i.wf = true) : i.txs < 256 := by
  simp only [Instr.wf, Instr.txsFits, Bool.and_eq_true, decide_eq_true_eq] at h
  exact h.1

theorem wf_alpha {i : Instr} (h : i.wf = true) : -32768 ≤ i.alpha ∧ i.alpha ≤ 32767 := by
  simp only [Instr.wf, Instr.alphaFits, Bool.and_eq_true, Config.alphaBits] at h
  norm_num at h
  omega

theorem pattern_lt (i : Instr) : i.pattern.toNat < 256 := by cases i <;> simp [Instr.pattern]

/-- The word of a well-formed command, as a number. -/
theorem encode_parts {i : Instr} (h : i.wf = true) :
    (encode i).toNat = i.pattern.toNat + 256 * i.txs + 65536 * zext 16 i.alpha := by
  have ht : zext Config.txsBits (i.txs : Int) = i.txs := by
    have := wf_txs h
    zify
    exact zext_of_fits (by omega) (by simp only [Config.txsBits]; omega)
  have hp : i.pattern = BitVec.ofNat 32 i.pattern.toNat := by simp
  rw [encode, hp, ht]
  simpa [Config.alphaBits] using word_parts (pattern_lt i) (wf_txs h) (zext_lt 16 i.alpha)

/-! ### The decoder -/

/-- A word that decodes is covered by a row, whose command it is. -/
theorem decode_ok {c : Word} {i : Instr} (h : decode c = .ok i) :
    ∃ r ∈ opRows, r.covers c = true ∧ i = r.build (txsField c) (alphaField c) := by
  unfold decode at h
  split at h
  · rename_i r hr
    injection h with h
    exact ⟨r, List.mem_of_find?_eq_some hr, List.find?_some (p := fun r : OpRow => r.covers c) hr, h.symm⟩
  · cases h

/-- A word is rejected exactly when no row covers it. -/
theorem decode_error_iff {c : Word} : (∃ e, decode c = .error e) ↔ ∀ r ∈ opRows, r.covers c = false := by
  unfold decode
  constructor
  · rintro ⟨e, h⟩
    split at h
    · cases h
    · rename_i hr
      simpa [List.find?_eq_none] using hr
  · intro h
    have hr : opRows.find? (fun r => r.covers c) = none := by simpa [List.find?_eq_none] using h
    rw [hr]
    exact ⟨_, rfl⟩

/-- What covering means for each row, in the order of the map. -/
theorem covers_rows {c : Word} {r : OpRow} (hr : r ∈ opRows) (hc : r.covers c = true) :
    c.toNat % 256 = r.pattern.toNat ∧ (r.mask = maskFixed → c.toNat / 65536 = 0) := by
  have fixed : ∀ {p : Nat} (_ : p < 256) (b : Nat → Int → Instr),
      (OpRow.mk maskFixed (BitVec.ofNat 32 p) b).covers c = true →
      c.toNat % 256 = (BitVec.ofNat 32 p).toNat ∧ (maskFixed = maskFixed → c.toNat / 65536 = 0) := by
    intro p hp b h
    obtain ⟨h1, h2⟩ := (covers_fixed hp b c).mp h
    exact ⟨by rw [h1, BitVec.toNat_ofNat, Nat.mod_eq_of_lt (by omega)], fun _ => h2⟩
  have alpha : ∀ {p : Nat} (_ : p < 256) (b : Nat → Int → Instr),
      (OpRow.mk maskAlpha (BitVec.ofNat 32 p) b).covers c = true →
      c.toNat % 256 = (BitVec.ofNat 32 p).toNat ∧ (maskAlpha = maskFixed → c.toNat / 65536 = 0) := by
    intro p hp b h
    have h1 := (covers_alpha hp b c).mp h
    exact ⟨by rw [h1, BitVec.toNat_ofNat, Nat.mod_eq_of_lt (by omega)], fun h => absurd h (by decide)⟩
  simp only [opRows, List.mem_cons, List.not_mem_nil, or_false] at hr
  rcases hr with rfl | rfl | rfl | rfl | rfl | rfl | rfl | rfl | rfl | rfl | rfl
  · exact fixed (by decide) _ hc
  · exact fixed (by decide) _ hc
  · exact fixed (by decide) _ hc
  · exact fixed (by decide) _ hc
  · exact fixed (by decide) _ hc
  · exact fixed (by decide) _ hc
  · exact fixed (by decide) _ hc
  · exact alpha (by decide) _ hc
  · exact alpha (by decide) _ hc
  · exact fixed (by decide) _ hc
  · exact fixed (by decide) _ hc

/-- A word that a row covers, and no row before it, is that row's command. -/
theorem decode_of_find {c : Word} {r : OpRow} (h : opRows.find? (fun r => r.covers c) = some r) :
    decode c = .ok (r.build (txsField c) (alphaField c)) := by
  unfold decode
  rw [h]

/-- What a row builds: a command with the row's match, with the fields given, `alpha` being 0 where the row has none. -/
theorem build_fields {r : OpRow} (hr : r ∈ opRows) (t : Nat) (a : Int) :
    r.pattern = (r.build t a).pattern ∧ (r.build t a).txs = t ∧
      ((r.build t a).alpha = a ∨ (r.build t a).alpha = 0 ∧ r.mask = maskFixed) := by
  simp only [opRows, List.mem_cons, List.not_mem_nil, or_false] at hr
  rcases hr with rfl | rfl | rfl | rfl | rfl | rfl | rfl | rfl | rfl | rfl | rfl
  all_goals first
    | exact ⟨rfl, rfl, .inl rfl⟩
    | exact ⟨rfl, rfl, .inr ⟨rfl, rfl⟩⟩

/-- The fields of a decoded command are the fields of the word; its low byte is the command's match; without an `alpha`
operand the upper half is 0. -/
theorem decode_ok_fields {c : Word} {i : Instr} (h : decode c = .ok i) :
    c.toNat % 256 = i.pattern.toNat ∧ i.txs = txsField c ∧
      (i.alpha = alphaField c ∨ i.alpha = 0 ∧ c.toNat / 65536 = 0) := by
  obtain ⟨r, hr, hc, rfl⟩ := decode_ok h
  obtain ⟨h1, h2⟩ := covers_rows hr hc
  obtain ⟨h3, h4, h5⟩ := build_fields hr (txsField c) (alphaField c)
  exact ⟨h3 ▸ h1, h4, h5.imp_right fun h => ⟨h.1, h2 h.2⟩⟩

/-- A row whose match is a command's match builds that command from its fields. -/
theorem build_of_pattern {r : OpRow} (hr : r ∈ opRows) {i : Instr} (h : r.pattern = i.pattern) :
    r.build i.txs i.alpha = i := by
  simp only [opRows, List.mem_cons, List.not_mem_nil, or_false] at hr
  rcases hr with rfl | rfl | rfl | rfl | rfl | rfl | rfl | rfl | rfl | rfl | rfl <;> cases i <;>
    first
      | rfl
      | (simp [Instr.pattern] at h)

/-- Every command has a row with its match; the row's mask leaves `alpha` free exactly for `PRED`. -/
theorem row_of_pattern (i : Instr) :
    ∃ r ∈ opRows, r.pattern = i.pattern ∧ (r.mask = maskAlpha ∨ r.mask = maskFixed ∧ i.alpha = 0) := by
  have at_row : ∀ (k : Nat) (r : OpRow), opRows[k]? = some r → r.pattern = i.pattern →
      (r.mask = maskAlpha ∨ r.mask = maskFixed ∧ i.alpha = 0) →
      ∃ r ∈ opRows, r.pattern = i.pattern ∧ (r.mask = maskAlpha ∨ r.mask = maskFixed ∧ i.alpha = 0) :=
    fun _ r hr hp hm => ⟨r, List.mem_of_getElem? hr, hp, hm⟩
  cases i with
  | subavg => exact at_row 0 _ rfl rfl (.inr ⟨rfl, rfl⟩)
  | subs420lbd => exact at_row 1 _ rfl rfl (.inr ⟨rfl, rfl⟩)
  | subs422lbd => exact at_row 2 _ rfl rfl (.inr ⟨rfl, rfl⟩)
  | subs444lbd => exact at_row 3 _ rfl rfl (.inr ⟨rfl, rfl⟩)
  | subs420hbd => exact at_row 4 _ rfl rfl (.inr ⟨rfl, rfl⟩)
  | subs422hbd => exact at_row 5 _ rfl rfl (.inr ⟨rfl, rfl⟩)
  | subs444hbd => exact at_row 6 _ rfl rfl (.inr ⟨rfl, rfl⟩)
  | predLbd => exact at_row 7 _ rfl rfl (.inl rfl)
  | predHbd => exact at_row 8 _ rfl rfl (.inl rfl)
  | cmpE8 => exact at_row 9 _ rfl rfl (.inr ⟨rfl, rfl⟩)
  | cmpE16 => exact at_row 10 _ rfl rfl (.inr ⟨rfl, rfl⟩)

end Sys2Proof
end

