-- ==== Sys2Proof/Laws/Kernels.lean ====
section
/-! SUPPORT. What each kernel does, said once in the terms of Safety.lean: when it completes and what it stores. The
checks over lists of positions are the statements over rows and columns; the average is the rounded mean. -/

namespace Sys2Proof.Machine

/-! ### Blocks as lists of positions -/

/-- A check of every position of a block, as one over its list of positions. -/
theorem inBlock_iff {w h : Nat} {P : Nat → Nat → Prop} : InBlock w h P ↔ ∀ p ∈ positions w h, P p.1 p.2 := by
  constructor
  · intro hp p hm
    rw [mem_positions] at hm
    exact hp _ _ hm.1 hm.2
  · intro hp r c hr hc
    exact hp (r, c) (mem_positions.mpr ⟨hr, hc⟩)

theorem all_positions_iff {w h : Nat} {f : Nat → Nat → Bool} :
    ((positions w h).all fun p => f p.1 p.2) = true ↔ InBlock w h fun r c => f r c = true := by
  rw [inBlock_iff, List.all_eq_true]

/-- The sum the dc_remover takes is the sum over rows and columns (40_dc_remover.md R90). -/
theorem blockSum_eq_sumBlock (f : Nat → Nat → Int) (w h : Nat) : blockSum f w h = sumBlock w h f := by
  have range_sum : ∀ (n : Nat) (g : Nat → Int), ((List.range n).map g).sum = ∑ c ∈ Finset.range n, g c := by
    intro n g
    induction n with
    | zero => rfl
    | succ n ih => simp [List.range_succ, Finset.sum_range_succ, ih]
  unfold blockSum positions sumBlock
  rw [← range_sum]
  generalize List.range h = rows
  induction rows with
  | nil => rfl
  | cons r rest ih => simp [ih, range_sum, Function.comp_def]

/-! ### The average -/

/-- The number of samples of a block is a power of two, from 16 to 1024 (40_dc_remover.md R90). -/
theorem resolve_area {txs w h : Nat} (hk : resolve txs = .block w h) :
    ∃ n, 4 ≤ n ∧ n ≤ 10 ∧ w * h = 2 ^ n ∧ (w * h).log2 = n := by
  have areas : ∀ p ∈ catalog, p.1 ≤ Config.maxDim → p.2 ≤ Config.maxDim →
      4 ≤ (p.1 * p.2).log2 ∧ (p.1 * p.2).log2 ≤ 10 ∧ p.1 * p.2 = 2 ^ (p.1 * p.2).log2 := by decide +kernel
  obtain ⟨hm, hw, hh⟩ := resolve_mem_catalog hk
  obtain ⟨h1, h2, h3⟩ := areas _ hm hw hh
  exact ⟨_, h1, h2, h3, rfl⟩

/-- The offset and shift of R90 are the floor division of R90's text, at every size of the catalog. -/
theorem roundedMean_eq {txs w h : Nat} (hk : resolve txs = .block w h) (sum : Int) :
    roundedMean sum w h = (sum + (w * h / 2 : Nat)) / (w * h : Nat) := by
  obtain ⟨n, h4, -, ha, hl⟩ := resolve_area hk
  have hh : 2 ^ n / 2 = 2 ^ (n - 1) := by
    obtain ⟨m, rfl⟩ : ∃ m, n = m + 1 := ⟨n - 1, by omega⟩
    simp [pow_succ]
  simp only [roundedMean, hl, Int.shiftRight_eq_div_pow, Nat.shiftLeft_eq, one_mul]
  rw [ha, hh]

/-- `avg` is the block's rounded mean (40_dc_remover.md R90). -/
theorem State.q3Avg_eq_meanOf {txs w h : Nat} (hk : resolve txs = .block w h) (s : State) :
    s.q3Avg w h = meanOf w h s.q3Sample := by
  rw [State.q3Avg, roundedMean_eq hk, blockSum_eq_sumBlock, meanOf]

/-! ### The kernels -/

theorem fitsQ3_iff {v : Int} : fitsQ3 v = true ↔ -32768 ≤ v ∧ v ≤ 32767 := by simp [fitsQ3]

/-- The range check of `SUBAVG` is the exact condition of 40_dc_remover.md R93. -/
theorem differencesFit_iff {txs w h : Nat} (hk : resolve txs = .block w h) {s : State} :
    ((positions w h).all fun p => fitsQ3 (s.q3Sample p.1 p.2 - s.q3Avg w h)) = true ↔ s.DifferencesFit w h := by
  rw [State.q3Avg_eq_meanOf hk, all_positions_iff (f := fun r c => fitsQ3 (s.q3Sample r c - meanOf w h s.q3Sample))]
  simp only [fitsQ3_iff, State.DifferencesFit]

/-- The range check of the high bit-depth `SUBS` is that of 41_subsampler.md R107. -/
theorem State.lumaInRange_iff {s : State} {f : ChromaFormat} {w h : Nat} :
    s.lumaInRange f w h = true ↔ s.LumaOk f w h := by
  rw [State.lumaInRange, all_positions_iff (f := fun y x => decide (s.lumaSample .two y x ≤ maxLumaHbd))]
  simp only [decide_eq_true_eq]
  rfl

/-- `SUBAVG` at a supported size, on a running block: when it completes and what it stores. -/
theorem execSubavg_next_iff {txs w h : Nat} {s t : State} (hs : s.halted = false) (hk : resolve txs = .block w h) :
    execSubavg txs s = .next t ↔ s.Maps (s.q3 w h) ∧ s.DifferencesFit w h ∧
      t = { s with mem := (s.q3 w h).storeAll (fun r c => s.q3Sample r c - meanOf w h s.q3Sample) s.mem } := by
  rw [execSubavg, runCommand_block hs hk, subtractMean, runWriting_next_iff, differencesFit_iff hk,
    State.q3Avg_eq_meanOf hk]
  simp

/-- A low bit-depth `SUBS` kernel: when it completes and what it stores. -/
theorem subsampleLbd_next_iff {f : ChromaFormat} {w h : Nat} {s t : State} :
    subsampleLbd f s w h = .next t ↔ (s.Maps (s.q3 w h) ∧ s.Maps (s.luma f .one w h)) ∧
      (s.q3 w h).Apart (s.luma f .one w h) ∧
      t = { s with mem := (s.q3 w h).storeAll (subsampled f (s.lumaSample .one)) s.mem } := by
  rw [subsampleLbd, runWriting_next_iff, Access.meets_eq_false]
  simp

/-- A high bit-depth `SUBS` kernel: when it completes and what it stores. -/
theorem subsampleHbd_next_iff {f : ChromaFormat} {w h : Nat} {s t : State} :
    subsampleHbd f s w h = .next t ↔ (s.Maps (s.q3 w h) ∧ s.Maps (s.luma f .two w h)) ∧
      (s.q3 w h).Apart (s.luma f .two w h) ∧ s.LumaOk f w h ∧
      t = { s with mem := (s.q3 w h).storeAll (subsampled f (s.lumaSample .two)) s.mem } := by
  rw [subsampleHbd, runWriting_next_iff, Access.meets_eq_false, State.lumaInRange_iff]
  simp

/-- A `PRED` kernel: when it completes and what it stores. -/
theorem predict_next_iff {size : ElemSize} {m alpha : Int} {w h : Nat} {s t : State} :
    predict size m alpha s w h = .next t ↔ (s.Maps (s.dst size w h) ∧ s.Maps (s.q3 w h)) ∧
      ((s.dst size w h).Apart (s.q3 w h) ∧ (s.dst size w h).Unfolded) ∧
      t = { s with
        mem := (s.dst size w h).storeAll (fun r c => predicted m alpha (s.q3Sample r c) (s.dstSample size r c)) s.mem } := by
  rw [predict, runWriting_next_iff, Bool.or_eq_false_iff, Access.meets_eq_false, Access.folds_eq_false]
  simp

/-! ### The ranges of the samples -/

theorem State.q3Sample_range (s : State) (r c : Nat) : -32768 ≤ s.q3Sample r c ∧ s.q3Sample r c ≤ 32767 := by
  unfold State.q3Sample Plane.getSigned Memory.loadSigned
  exact sext16_range _

theorem Plane.get_range (p : Plane) (m : Memory) (r c : Nat) :
    (0 : Int) ≤ p.get m r c ∧ (p.get m r c : Int) < 2 ^ (8 * p.size.bytes) := by
  have := Memory.load_lt m p.size (p.addr r c)
  exact ⟨Int.natCast_nonneg _, by exact_mod_cast this⟩

theorem State.lumaSample_range (s : State) (size : ElemSize) (y x : Nat) :
    0 ≤ s.lumaSample size y x ∧ s.lumaSample size y x < 2 ^ (8 * size.bytes) :=
  Plane.get_range (s.srcPlane size) s.mem y x

theorem State.dstSample_range (s : State) (size : ElemSize) (r c : Nat) :
    0 ≤ s.dstSample size r c ∧ s.dstSample size r c < 2 ^ (8 * size.bytes) :=
  Plane.get_range (s.dstPlane size) s.mem r c

/-- The output of a `SUBS` over a region whose samples lie in 0 to `m` lies in 0 to `8 * m` (41_subsampler.md R107). -/
theorem subsampled_range {f : ChromaFormat} {w h : Nat} {L : Nat → Nat → Int} {m : Int}
    (hl : InBlock (w <<< f.subX) (h <<< f.subY) fun y x => 0 ≤ L y x ∧ L y x ≤ m) :
    InBlock w h fun r c => 0 ≤ subsampled f L r c ∧ subsampled f L r c ≤ 8 * m := by
  intro r c hr hc
  cases f <;> simp only [ChromaFormat.subX, ChromaFormat.subY, Nat.shiftLeft_eq, pow_one, pow_zero, mul_one] at hl <;>
    simp only [subsampled]
  · have h1 := hl (2 * r) (2 * c) (by omega) (by omega)
    have h2 := hl (2 * r) (2 * c + 1) (by omega) (by omega)
    have h3 := hl (2 * r + 1) (2 * c) (by omega) (by omega)
    have h4 := hl (2 * r + 1) (2 * c + 1) (by omega) (by omega)
    omega
  · have h1 := hl r (2 * c) (by omega) (by omega)
    have h2 := hl r (2 * c + 1) (by omega) (by omega)
    omega
  · have h1 := hl r c (by omega) (by omega)
    omega

/-- The stored prediction lies in 0 to the bound (42_fixed_point_scaler.md R122, R123). -/
theorem predicted_range {m : Int} (hm : 0 ≤ m) (alpha p d : Int) :
    0 ≤ predicted m alpha p d ∧ predicted m alpha p d ≤ m := by
  simp only [predicted, clip]; omega

/-! ### Small facts of the scaler and the comparator -/

/-- The shift of `RoundSigned6` as a floor division on the magnitude (42_fixed_point_scaler.md R120). -/
theorem roundSigned6_eq (q : Int) : roundSigned6 q = if q < 0 then -((-q + 32) / 64) else (q + 32) / 64 := by
  simp only [roundSigned6, Config.predRoundBits, Int.shiftRight_eq_div_pow, Nat.shiftLeft_eq]
  norm_num

/-- The record of a mismatch as a number (60_exceptions.md R152). -/
theorem mismatchInfo_eq {r c : Nat} (hc : c < 32) : mismatchInfo r c = BitVec.ofNat 32 (256 * r + c) := by
  unfold mismatchInfo
  rw [← Nat.shiftLeft_add_eq_or_of_lt (by omega : c < 2 ^ 8), Nat.shiftLeft_eq]
  congr 1
  omega

/-- The positions of a block are in raster order (44_parity_comparator.md R142). -/
theorem positions_ordered (w h : Nat) : (positions w h).Pairwise fun p q => p.1 < q.1 ∨ p.1 = q.1 ∧ p.2 < q.2 := by
  rw [positions, List.pairwise_flatMap]
  refine ⟨fun r _ => ?_, ?_⟩
  · rw [List.pairwise_map]
    exact List.pairwise_lt_range.imp fun h => .inr ⟨rfl, h⟩
  · refine List.pairwise_lt_range.imp ?_
    intro a b hab x hx y hy
    simp only [List.mem_map] at hx hy
    obtain ⟨_, _, rfl⟩ := hx
    obtain ⟨_, _, rfl⟩ := hy
    exact .inl hab

/-- The bound of the clip fits a 16-bit container (42_fixed_point_scaler.md R121). -/
theorem pixMaxHbd_range (depth : Nat) : 0 ≤ pixMaxHbd depth ∧ pixMaxHbd depth ≤ 4095 := by
  unfold pixMaxHbd
  split
  · decide
  · split <;> decide

end Sys2Proof.Machine
end

