-- ==== Sys2Proof/Laws/PerInstr.lean ====
section
/-! SUPPORT. One lemma per command: the value of its word, field by field (30_encoding.md R76). -/

namespace Sys2Proof.Laws.EncodedFields

open Sys2Proof.Machine

/-- The word of a well-formed command holds its row's match in the low byte, `txs` in bits 15:8 and `alpha` in bits
31:16. -/
def Statement (i : Instr) : Prop :=
  i.wf = true → (encode i).toNat = i.pattern.toNat + 256 * i.txs + 65536 * zext 16 i.alpha

theorem subavg (t : Nat) : Statement (.subavg t) := fun h => encode_parts h
theorem subs420lbd (t : Nat) : Statement (.subs420lbd t) := fun h => encode_parts h
theorem subs422lbd (t : Nat) : Statement (.subs422lbd t) := fun h => encode_parts h
theorem subs444lbd (t : Nat) : Statement (.subs444lbd t) := fun h => encode_parts h
theorem subs420hbd (t : Nat) : Statement (.subs420hbd t) := fun h => encode_parts h
theorem subs422hbd (t : Nat) : Statement (.subs422hbd t) := fun h => encode_parts h
theorem subs444hbd (t : Nat) : Statement (.subs444hbd t) := fun h => encode_parts h
theorem predLbd (t : Nat) (a : Int) : Statement (.predLbd t a) := fun h => encode_parts h
theorem predHbd (t : Nat) (a : Int) : Statement (.predHbd t a) := fun h => encode_parts h
theorem cmpE8 (t : Nat) : Statement (.cmpE8 t) := fun h => encode_parts h
theorem cmpE16 (t : Nat) : Statement (.cmpE16 t) := fun h => encode_parts h

end Sys2Proof.Laws.EncodedFields
end

