-- ==== Sys2Proof/Machine/Assembler.lean ====
section
/-! DEFINITION. The assembler syntax and the disassembly of 30_encoding.md R80 to R82. Nothing of the machine depends on
it; what the spec leaves open of the text's form is in assumption log 18. -/

namespace Sys2Proof.Machine

/-- Why a line is not assembled. -/
inductive AsmError where
  /-- The first word is no command and no host directive. -/
  | unknownWord
  /-- The operands do not have the form the line needs. -/
  | badOperands
  /-- A number is outside the range of its field. -/
  | outOfRange
  deriving DecidableEq, Repr

/-- The size names of 43_size_dispatch_mux.md R130, by index. -/
def sizeNames : List String :=
  [ "tx4x4", "tx8x8", "tx16x16", "tx32x32", "tx64x64",
    "tx4x8", "tx8x4", "tx8x16", "tx16x8", "tx16x32", "tx32x16", "tx32x64", "tx64x32",
    "tx4x16", "tx16x4", "tx8x32", "tx32x8", "tx16x64", "tx64x16" ]

/-- The register names of 10_state.md R33 in lower case, with the register each names. -/
def regNames : List (String × Reg) :=
  [ ("cmd", .cmd), ("status", .status), ("finfo", .finfo), ("bd", .bd), ("src_base", .srcBase),
    ("src_stride", .srcStride), ("dst_base", .dstBase), ("dst_stride", .dstStride), ("q3_base", .q3Base) ]

/-- The mnemonic of a command, as R80 writes it. -/
def mnemonic : Instr → String
  | .subavg _ => "subavg"
  | .subs420lbd _ => "subs.420.lbd"
  | .subs422lbd _ => "subs.422.lbd"
  | .subs444lbd _ => "subs.444.lbd"
  | .subs420hbd _ => "subs.420.hbd"
  | .subs422hbd _ => "subs.422.hbd"
  | .subs444hbd _ => "subs.444.hbd"
  | .predLbd _ _ => "pred.lbd"
  | .predHbd _ _ => "pred.hbd"
  | .cmpE8 _ => "cmp.e8"
  | .cmpE16 _ => "cmp.e16"

/-- The commands with no `alpha` operand, by mnemonic (R80). -/
def sizedCommand (name : String) (t : Nat) : Option Instr :=
  [Instr.subavg t, .subs420lbd t, .subs422lbd t, .subs444lbd t, .subs420hbd t, .subs422hbd t, .subs444hbd t,
    .cmpE8 t, .cmpE16 t].find? fun i => mnemonic i == name

/-- The commands with an `alpha` operand, by mnemonic (R80). -/
def scaledCommand (name : String) (t : Nat) (a : Int) : Option Instr :=
  [Instr.predLbd t a, .predHbd t a].find? fun i => mnemonic i == name

/-! ### Reading a line -/

/-- The value of a digit of a number in base `base`. -/
def digitValue (base : Nat) (ch : Char) : Option Nat :=
  let v :=
    if '0' ≤ ch ∧ ch ≤ '9' then ch.toNat - '0'.toNat
    else if 'a' ≤ ch ∧ ch ≤ 'f' then ch.toNat - 'a'.toNat + 10
    else base
  if v < base then some v else none

/-- A number in base `base` from its digits, the value so far being `acc`. -/
def digits (base : Nat) : List Char → Nat → Option Nat
  | [], acc => some acc
  | ch :: rest, acc =>
    match digitValue base ch with
    | some v => digits base rest (acc * base + v)
    | none => none

/-- A decimal number, or a hexadecimal one after `0x` (R80). -/
def readNat : List Char → Option Nat
  | [] => none
  | ['0', 'x'] => none
  | '0' :: 'x' :: rest => digits 16 rest 0
  | cs => digits 10 cs 0

/-- A signed number (R80: `<alpha>`). -/
def readInt : List Char → Option Int
  | '-' :: rest => (readNat rest).map fun n => -(n : Int)
  | cs => (readNat cs).map fun n => (n : Int)

/-- The `<size>` operand: a size name, or `#n` (R80). -/
def readSize (cs : List Char) : Option Nat :=
  match cs with
  | '#' :: rest => readNat rest
  | _ => sizeNames.findIdx? fun n => n == String.ofList cs

/-- The words of a line and its commas, up to the comment (R80); `cur` is the word being read, reversed. -/
def lineWords : List Char → List Char → List (List Char)
  | [], cur => if cur.isEmpty then [] else [cur.reverse]
  | ch :: rest, cur =>
    let done := if cur.isEmpty then [] else [cur.reverse]
    if ch = ';' then done
    else if ch = ',' then done ++ [[',']] ++ lineWords rest []
    else if ch = ' ' ∨ ch = '\t' then done ++ lineWords rest []
    else lineWords rest (ch.toLower :: cur)

/-- A line's command as the host action that writes its word to `CMD` (R80, R81), when its operands fit. -/
def commandAction (i : Option Instr) : Except AsmError (Option HostAction) :=
  match i with
  | none => .error .unknownWord
  | some i => if i.wf then .ok (some (.command (encode i))) else .error .outOfRange

/-- A 32-bit value of a host directive (R81). -/
def wordValue (cs : List Char) : Except AsmError Word :=
  match readNat cs with
  | none => .error .badOperands
  | some n => if n < 2 ^ Config.regBits then .ok (BitVec.ofNat 32 n) else .error .outOfRange

/-- The register a name stands for (R81). -/
def readReg (cs : List Char) : Except AsmError Reg :=
  match regNames.find? fun p => p.1 == String.ofList cs with
  | some p => .ok p.2
  | none => .error .badOperands

/-- One line of a listing: a command (R80), a host directive (R81), or nothing. -/
def assembleLine (line : String) : Except AsmError (Option HostAction) :=
  match lineWords line.toList [] with
  | [] => .ok none
  | [['r', 'd'], reg] => (readReg reg).map fun r => some (.rd r)
  | [['w', 'r'], reg, [','], value] =>
    match readReg reg with
    | .error e => .error e
    | .ok r => (wordValue value).map fun v => some (.wr r v)
  | [['c', 'm', 'd'], value] => (wordValue value).map fun v => some (.command v)
  | [name, size] =>
    match readSize size with
    | none => .error .badOperands
    | some t => commandAction (sizedCommand (String.ofList name) t)
  | [name, size, [','], alpha] =>
    match readSize size, readInt alpha with
    | some t, some a => commandAction (scaledCommand (String.ofList name) t a)
    | _, _ => .error .badOperands
  | _ => .error .badOperands

/-! ### Printing a word -/

/-- How `txs` prints: the size name for 0 to 18, else `#n` (R82). -/
def showSize (t : Nat) : String :=
  match sizeNames[t]? with
  | some n => n
  | none => "#" ++ Nat.repr t

/-- The last `k` hexadecimal digits of a number. -/
def hexDigits : Nat → Nat → List Char
  | 0, _ => []
  | k + 1, n => hexDigits k (n / 16) ++ [Nat.digitChar (n % 16)]

/-- A command as a line (R82). -/
def showInstr (i : Instr) : String :=
  match i with
  | .predLbd t a => mnemonic i ++ " " ++ showSize t ++ ", " ++ toString a
  | .predHbd t a => mnemonic i ++ " " ++ showSize t ++ ", " ++ toString a
  | .subavg t => mnemonic i ++ " " ++ showSize t
  | .subs420lbd t => mnemonic i ++ " " ++ showSize t
  | .subs422lbd t => mnemonic i ++ " " ++ showSize t
  | .subs444lbd t => mnemonic i ++ " " ++ showSize t
  | .subs420hbd t => mnemonic i ++ " " ++ showSize t
  | .subs422hbd t => mnemonic i ++ " " ++ showSize t
  | .subs444hbd t => mnemonic i ++ " " ++ showSize t
  | .cmpE8 t => mnemonic i ++ " " ++ showSize t
  | .cmpE16 t => mnemonic i ++ " " ++ showSize t

/-- Disassembly (R82): a word that matches no row prints as `cmd 0x` and eight hexadecimal digits. -/
def disassemble (c : Word) : String :=
  match decode c with
  | .ok i => showInstr i
  | .error _ => "cmd 0x" ++ String.ofList (hexDigits 8 c.toNat)

end Sys2Proof.Machine
end

