-- ==== Sys2Proof/Tests/Slice0.lean ====
section
/-! SUPPORT. The model's own tests. Expected values are the spec's: 95_test_vectors.md, by the vector's name, or the
examples of the rules. After them, for every statement of Certificates/Slice0/Obligations.lean with hypotheses, a concrete
state and operands that meet them. -/

namespace Sys2Proof.Tests

open Sys2Proof Sys2Proof.Machine

-- One theorem at a time: the checks below are kernel evaluations, and many at once need many threads.
set_option Elab.async false

/-! ### Helpers -/

/-- Bytes stored from address `a` on. -/
def bytesAt (a : Nat) : List Nat → Memory → Memory
  | [], m => m
  | v :: vs, m => bytesAt (a + 1) vs (m.setByte a (BitVec.ofNat 8 v))

/-- A row of 16-bit elements stored from address `a` on. -/
def rowAt (a : Nat) : List Int → Memory → Memory
  | [], m => m
  | v :: vs, m => rowAt (a + 2) vs (m.storeValue .two a v)

/-- Four rows of Q3 elements at 0x200. -/
def q3Rows (r0 r1 r2 r3 : List Int) : Memory :=
  rowAt 0x200 r0 (rowAt 0x240 r1 (rowAt 0x280 r2 (rowAt 0x2C0 r3 [])))

/-- The planes of most tests: source at 0x100 with stride 8, Q3 buffer at 0x200, destination at 0x400 with stride 4. -/
def planes (m : Memory) : State :=
  { State.reset with srcBase := 0x100#32, srcStride := 8#32, q3Base := 0x200#32, dstBase := 0x400#32,
                     dstStride := 4#32, mem := m }

/-- The common luma plane of section 2.2: `L(y, x) = (8 y + x) * 3 + 10`, 8 rows of 8. -/
def commonPlane : State := planes (bytesAt 0x100 ((List.range 64).map fun k => 3 * k + 10) [])

/-- The state a step ends in, or `State.reset` where it has none. -/
def after : Result → State
  | .next t => t
  | .fault _ => State.reset
  | .refused _ => State.reset

/-- A step ends in a next state. -/
def goesOn : Result → Bool
  | .next _ => true
  | .fault _ => false
  | .refused _ => false

/-- The reason a step is refused for. -/
def refusalOf : Result → Option Refusal
  | .next _ => none
  | .fault _ => none
  | .refused x => some x

theorem refused_of {r : Result} {x : Refusal} (h : refusalOf r = some x) : r = .refused x := by
  cases r with
  | next t => cases h
  | fault f => cases h
  | refused y => cases h; rfl

theorem next_after {r : Result} (h : goesOn r = true) : r = .next (after r) := by
  cases r with
  | next t => rfl
  | fault f => cases h
  | refused x => cases h

theorem maps_of_nil {s : State} (h : s.unmapped = []) (x : Access) : s.Maps x := by
  intro a _
  simp [State.mapped, h]

theorem inBlock_of_all {w h : Nat} {P : Nat → Nat → Prop} (f : Nat → Nat → Bool) (hf : ∀ r c, f r c = true → P r c)
    (ha : ((positions w h).all fun p => f p.1 p.2) = true) : InBlock w h P := fun r c hr hc =>
  hf r c (all_positions_iff.mp ha r c hr hc)

/-! ### Well-formedness -/

theorem test_wf_accepts_the_ends : (Instr.predHbd 255 (-32768)).wf = true ∧ (Instr.predLbd 0 32767).wf = true := by decide
theorem test_wf_refuses_txs_256 : (Instr.subavg 256).wf = false ∧ (Instr.subavg 256).txsFits = false := by decide
theorem test_wf_refuses_alpha_32768 : (Instr.predLbd 0 32768).wf = false ∧ (Instr.predLbd 0 32768).alphaFits = false := by
  decide
theorem test_wf_refuses_alpha_below : (Instr.predHbd 0 (-32769)).wf = false := by decide

/-! ### Decoding: the words of 30_encoding.md R76's patterns, bit 31 first -/

theorem test_decode_subavg : decode 0b00000000000000000001100000000001#32 = .ok (.subavg 24) := by decide
theorem test_decode_subs420lbd : decode 0b00000000000000000000000000000010#32 = .ok (.subs420lbd 0) := by decide
theorem test_decode_subs422lbd : decode 0b00000000000000000000001100010010#32 = .ok (.subs422lbd 3) := by decide
theorem test_decode_subs444lbd : decode 0b00000000000000001000000000100010#32 = .ok (.subs444lbd 128) := by decide
theorem test_decode_subs420hbd : decode 0b00000000000000000000000101000010#32 = .ok (.subs420hbd 1) := by decide
theorem test_decode_subs422hbd : decode 0b00000000000000000000010101010010#32 = .ok (.subs422hbd 5) := by decide
theorem test_decode_subs444hbd : decode 0b00000000000000000000011001100010#32 = .ok (.subs444hbd 6) := by decide
theorem test_decode_predLbd : decode 0b10000000000000000000000000000011#32 = .ok (.predLbd 0 (-32768)) := by decide
theorem test_decode_predHbd : decode 0b11111111111011000000011001000011#32 = .ok (.predHbd 6 (-20)) := by decide
theorem test_decode_cmpE8 : decode 0b00000000000000000000100100000100#32 = .ok (.cmpE8 9) := by decide
theorem test_decode_cmpE16 : decode 0b00000000000000001111111101000100#32 = .ok (.cmpE16 255) := by decide

/-- The illegal words of section 2.7, with the reason each is listed for. -/
theorem test_decode_illegal :
    decode 0x00000000#32 = .error .op ∧ decode 0x00000005#32 = .error .op ∧ decode 0x0000000F#32 = .error .op ∧
    decode 0x00000032#32 = .error .fmt ∧ decode 0x00000432#32 = .error .fmt ∧ decode 0x00000011#32 = .error .fmt ∧
    decode 0x00000041#32 = .error .hbd ∧ decode 0x00010001#32 = .error .alpha ∧ decode 0x00000082#32 = .error .z ∧
    decode 0x00000013#32 = .error .fmt ∧ decode 0x00000024#32 = .error .fmt ∧ decode 0x00010004#32 = .error .alpha ∧
    decode 0xFFFFFFFF#32 = .error .op := by decide

theorem test_encode : encode (.predHbd 6 (-20)) = 0xFFEC0643#32 ∧ encode (.subs422hbd 5) = 0x00000552#32 := by decide

/-- The table's numbering: a 32-bit word, bit 0 its least significant. -/
theorem test_decodeTableWord : decodeTableWord 32 0xFFEC0643 = some (.predHbd 6 (-20)) ∧ decodeTableWord 32 0 = none := by
  decide

/-! ### The size dispatch (V-DM1) -/

theorem test_resolve : resolve 5 = .block 4 8 ∧ resolve 6 = .block 8 4 ∧ resolve 23 = .noOp ∧ resolve 24 = .block 4 8 ∧
    resolve 37 = .noOp ∧ resolve 38 = .block 4 4 ∧ resolve 255 = .block 16 8 := by decide

/-! ### SUBAVG -/

/-- Fifteen 8 and one 16. -/
def sa2 : State := planes (q3Rows [8, 8, 8, 8] [8, 8, 8, 8] [8, 8, 8, 8] [8, 8, 8, 16])

/-- V-SA2: the tie 8.5 rounds up to 9. -/
theorem test_subavg_tie_up : (after (exec (.subavg 0) sa2)).q3Sample 0 0 = -1 ∧
    (after (exec (.subavg 0) sa2)).q3Sample 3 3 = 7 := by decide +kernel

/-- Nine -1 and seven 0. -/
def sa6 : State := planes (q3Rows [-1, -1, -1, -1] [-1, -1, -1, -1] [-1, 0, 0, 0] [0, 0, 0, 0])

/-- V-SA6: the shift of a negative sum floors. -/
theorem test_subavg_floors : (after (exec (.subavg 0) sa6)).q3Sample 0 0 = 0 ∧
    (after (exec (.subavg 0) sa6)).q3Sample 3 3 = 1 := by decide +kernel

/-- Fifteen -20000 and one 20000. -/
def sa12 : State := planes (q3Rows [-20000, -20000, -20000, -20000] [-20000, -20000, -20000, -20000]
  [-20000, -20000, -20000, -20000] [-20000, -20000, -20000, 20000])

/-! ### SUBS -/

/-- V-SS2. -/
theorem test_subs420lbd : (after (exec (.subs420lbd 0) commonPlane)).q3Sample 0 0 = 188 ∧
    (after (exec (.subs420lbd 0) commonPlane)).q3Sample 3 2 = 1436 := by decide +kernel
/-- V-SS3. -/
theorem test_subs422lbd : (after (exec (.subs422lbd 0) commonPlane)).q3Sample 0 1 = 140 ∧
    (after (exec (.subs422lbd 0) commonPlane)).q3Sample 3 0 = 668 := by decide +kernel
/-- V-SS5. -/
theorem test_subs444lbd : (after (exec (.subs444lbd 0) commonPlane)).q3Sample 1 2 = 320 := by decide +kernel
/-- V-SS9: a stride of -8, from row 7 up. -/
theorem test_subs444lbd_backwards : (after (exec (.subs444lbd 0)
    { commonPlane with srcBase := 0x138#32, srcStride := 0xFFFFFFF8#32 })).q3Sample 1 0 = 1232 := by decide +kernel

/-- 16-bit luma rows at 0x100, stride 8. -/
def wide : State := planes (rowAt 0x100 [1000, 1001, 600, 601] (rowAt 0x110 [1002, 1003, 4095, 0] []))

/-- V-SS8's block. -/
theorem test_subs420hbd : (after (exec (.subs420hbd 0) wide)).q3Sample 0 0 = 8012 := by decide +kernel
/-- V-SS10's pair. -/
theorem test_subs422hbd : (after (exec (.subs422hbd 0) wide)).q3Sample 0 1 = 4804 := by decide +kernel
/-- V-SS11: 4095 gives 32760. -/
theorem test_subs444hbd : (after (exec (.subs444hbd 0) wide)).q3Sample 1 2 = 32760 := by decide +kernel
/-- V-SS12: 4096 is outside the domain. -/
theorem test_subs444hbd_range : refusalOf (exec (.subs444hbd 0) (planes (rowAt 0x112 [4096] []))) = some .range := by
  decide +kernel

/-! ### PRED -/

/-- The table of section 2.3. -/
theorem test_roundSigned6 : [0, 31, 32, 33, 95, 96, -31, -32, -33, -95, -96, -97, 64, -64, -800, -7776, 2016, 524272,
      -524288, 1073741824, -1073709056].map roundSigned6 =
    [0, 0, 1, 1, 1, 2, 0, -1, -1, -1, -2, -2, 1, -1, -13, -122, 32, 8192, -8192, 16777216, -16776704] := by
  decide +kernel

/-- V-PR1, V-PR2, V-PR5, V-PR6 side by side. -/
def pr : State := planes (rowAt 0x200 [168, -648, 552, -216] (bytesAt 0x400 [128, 128, 250, 1] []))

theorem test_predLbd : ((List.range 4).map ((after (exec (.predLbd 0 12) pr)).dstSample .one 0)) = [160, 6, 255, 0] := by
  decide +kernel

/-- V-PR12, V-PR13 and V-PR9's old sample: p = -1980, d = 0 and p = 0, d = 512. -/
def prWide (depth : Word) : State := { planes (rowAt 0x200 [-1980, 0] (rowAt 0x400 [0, 512] [])) with bd := depth }

theorem test_predHbd : ((List.range 2).map ((after (exec (.predHbd 0 (-20)) (prWide 10#32))).dstSample .two 0)) =
    [619, 512] := by decide +kernel
theorem test_predHbd_unknown_depth :
    ((List.range 2).map ((after (exec (.predHbd 0 (-20)) (prWide 9#32))).dstSample .two 0)) = [255, 255] := by
  decide +kernel

/-! ### CMP -/

/-- Planes `A` and `B` with one different byte at (0, 3). -/
def cm1 : State := planes (bytesAt 0x103 [7] (bytesAt 0x403 [8] []))

/-- V-CM1. -/
theorem test_cmpE8 : (after (exec (.cmpE8 0) cm1)).status = 0x00000011#32 ∧
    (after (exec (.cmpE8 0) cm1)).finfo = 0x00000003#32 := by decide +kernel

/-- 16-bit planes that differ at (1, 3) and (2, 0), the first only in the high byte. -/
def cm3 : State := planes (rowAt 0x116 [0x100] (rowAt 0x120 [1] []))

/-- V-CM3, V-CM5. -/
theorem test_cmpE16 : (after (exec (.cmpE16 0) cm3)).finfo = 0x00000103#32 := by decide +kernel
/-- V-CM4: a difference outside the block is not seen. -/
theorem test_cmpE16_outside : (after (exec (.cmpE16 0) (planes (rowAt 0x108 [1] [])))) = planes (rowAt 0x108 [1] []) := by
  decide +kernel

/-! ### The host, faults, reset -/

/-- V-RG2, V-RG3: the reserved bits of `BD` stay 0; `STATUS` ignores writes. -/
theorem test_bd_and_status : (after (runActions [.wr .bd 0x1234560A#32, .rd .bd, .wr .status 0xFFFFFFFF#32, .rd .status]
    State.reset)).returned = [0#32, 0x0000000A#32] := by decide +kernel
/-- V-FT1 to V-FT4: an illegal word halts the block; later ones are not recorded; reset clears it. -/
theorem test_illegal_then_reset : (after (runActions [.command 0x32#32, .command 0x5#32, .rd .status, .rd .finfo, .reset,
    .rd .status, .rd .finfo] State.reset)).returned = [0#32, 0#32, 0x00000032#32, 0x00000021#32] := by decide +kernel
/-- V-RG5: an offset outside the map. -/
theorem test_offset_outside : (after (runActions [.portWrite 32 0x24 0xDEADBEEF#32, .portRead 32 0x24]
    State.reset)).returned = [0#32] := by decide +kernel
theorem test_fetched_word_runs : after (step (cm1.withFetchWord 32 0x00000004)) = after (exec (.cmpE8 0) cm1) := by
  decide +kernel
theorem test_verdicts : verdict (runActions [.command 0x1#32] State.reset) = .good ∧
    verdict (runActions [.command 0x0#32] State.reset) = .failed ∧
    verdict (runActions [.command 0x2#32] State.reset) = .noMeaning := by decide +kernel

/-! ### Assembler and disassembly -/

theorem test_assemble : assembleLine "  PRED.HBD tx8x4, -20  ; comment" = .ok (some (.command 0xFFEC0643#32)) ∧
    assembleLine "subavg #0x18" = .ok (some (.command 0x00001801#32)) ∧
    assembleLine "wr SRC_BASE, 0x1000" = .ok (some (.wr .srcBase 0x1000#32)) ∧
    assembleLine "rd STATUS" = .ok (some (.rd .status)) ∧ assembleLine "cmd 0x32" = .ok (some (.command 0x32#32)) := by
  decide +kernel
theorem test_disassemble : disassemble 0xFFEC0643#32 = "pred.hbd tx8x4, -20" ∧ disassemble 0x0000FF44#32 = "cmp.e16 #255" ∧
    disassemble 0x00000032#32 = "cmd 0x00000032" := by decide +kernel

/-! ### Witnesses: hypotheses of the statements, met by concrete states and operands -/

theorem witness_DecodeOfEncode : (Instr.predHbd 255 (-32768)).wf = true ∧ (Instr.predLbd 0 32767).wf = true ∧
    (Instr.subavg 255).wf = true := by decide

theorem witness_EncodeOfDecode : decode 0x7FFFFF43#32 = .ok (.predHbd 255 32767) ∧
    decode 0x00000001#32 = .ok (.subavg 0) := by decide

theorem witness_RejectedWordsAreTheListedOnes :
    (∃ e, decode 0x00000032#32 = .error e) ∧ State.reset.halted = false := ⟨⟨_, rfl⟩, by decide⟩

theorem witness_IllegalWordHaltsTheBlock :
    { State.reset with pending := [.command 0x00000432#32] }.pending = .command 0x00000432#32 :: [] ∧
    { State.reset with pending := [.command 0x00000432#32] }.halted = false ∧
    (∃ e, decode 0x00000432#32 = .error e) := ⟨rfl, by decide, ⟨_, rfl⟩⟩

theorem witness_StepRunsTheDecodedCommand :
    (cm1.withFetchWord 32 0x00000004).pending = .command 0x00000004#32 :: [] ∧
    decode 0x00000004#32 = .ok (.cmpE8 0) ∧ (Instr.cmpE8 0).wf = true := ⟨rfl, by decide, by decide⟩

theorem witness_IdleStepChangesNothing : State.reset.pending = [] := rfl

/-- Both clauses, at the last address of the space. -/
theorem witness_HostReadsAndWritesMemory : State.reset.mapped 0xFFFFFFFF = true ∧
    { State.reset with pending := [.memWrite 0xFFFFFFFF#32 7#8] }.pending = .memWrite 0xFFFFFFFF#32 7#8 :: [] ∧
    { State.reset with pending := [.memRead 0xFFFFFFFF#32] }.pending = .memRead 0xFFFFFFFF#32 :: [] := ⟨rfl, rfl, rfl⟩

theorem witness_OffsetsOutsideTheMapReadZero : 0x24 % 4 = 0 ∧ 0x20 < 0x24 := by decide

theorem witness_MisshapenPortAccessIsRefused : (8 ≠ 32 ∨ 0 % 4 ≠ 0) ∧ (32 ≠ 32 ∨ 0x21 % 4 ≠ 0) := by decide

/-- A block halted by the illegal word 0. -/
def stopped : State := { State.reset with status := 0x00000021#32 }

theorem witness_HaltedBlockOnlyObeysTheHost : stopped.halted = true ∧
    (Reg.bd ≠ .cmd ∧ Reg.bd ≠ .status ∧ Reg.bd ≠ .finfo) ∧ (Reg.q3Base ≠ .cmd ∧ Reg.q3Base ≠ .status ∧ Reg.q3Base ≠ .finfo) ∧
    Reg.srcBase ≠ Reg.bd ∧ stopped.mapped 0 = true ∧
    ∃ t, HostAction.command 0x1#32 ≠ .reset ∧ act (.command 0x1#32) stopped = .next t :=
  ⟨by decide, by decide, by decide, by decide, rfl, _, by decide, next_after (by decide +kernel)⟩

/-- Both outcomes: a step that is no reset, and one that is. -/
theorem witness_OnlyResetClearsTheFaultRecord : stopped.halted = true ∧ (∃ t, step stopped = .next t) ∧
    ∃ t, step { stopped with pending := [.reset] } = .next t := ⟨by decide, ⟨_, rfl⟩, ⟨_, rfl⟩⟩

theorem witness_HaltedRunsAreNeverGood : stopped.halted = true ∧ HostAction.reset ∉ [HostAction.command 0x1#32] := by decide

theorem witness_SizeIndexCountsModulo19 : (0 < 19 ∧ 0 ≤ 8) ∧ (8 < 19 ∧ 8 ≤ 8) ∧ (18 < 19 ∧ ¬ 18 ≤ 8) := by decide

/-- Both kinds of unsupported side, and an index past the table. -/
theorem witness_UnsupportedSizesDoNothing : catalog[(Instr.subavg 11).txs % 19]? = some (32, 64) ∧ (32 < 32 ∨ 32 < 64) ∧
    catalog[(Instr.cmpE8 31).txs % 19]? = some (64, 32) ∧ (32 < 64 ∨ 32 < 32) := by decide

theorem witness_SubavgSubtractsTheRoundedMean : sa2.halted = false ∧ resolve 0 = .block 4 4 ∧ sa2.Maps (sa2.q3 4 4) ∧
    sa2.DifferencesFit 4 4 :=
  ⟨by decide, by decide, maps_of_nil rfl _, (differencesFit_iff (txs := 0) (by decide)).mp (by decide +kernel)⟩

/-- The widest spread that R93 allows: 32767. -/
def spread : State := planes (q3Rows [-32768, -1, -1, -1] [-1, -1, -1, -1] [-1, -1, -1, -1] [-1, -1, -1, -1])

theorem q3Block_between {s : State} {lo hi : Int}
    (h : ((positions 4 4).all fun p => decide (lo ≤ s.q3Sample p.1 p.2) && decide (s.q3Sample p.1 p.2 ≤ hi)) = true) :
    InBlock 4 4 fun r c => lo ≤ s.q3Sample r c ∧ s.q3Sample r c ≤ hi :=
  inBlock_of_all (fun r c => decide (lo ≤ s.q3Sample r c) && decide (s.q3Sample r c ≤ hi)) (fun _ _ => by simp) h

/-- The three clauses: V-SA12 (a misfit) and V-SA2 (none), the widest allowed spread, samples 0 to 32760. -/
theorem witness_SubavgRefusesWhenADifferenceDoesNotFit :
    (sa12.halted = false ∧ resolve 0 = .block 4 4 ∧ sa12.Maps (sa12.q3 4 4) ∧
      32767 < sa12.q3Sample 3 3 - meanOf 4 4 sa12.q3Sample) ∧
    (sa2.halted = false ∧ sa2.Maps (sa2.q3 4 4) ∧ sa2.DifferencesFit 4 4) ∧
    (spread.halted = false ∧ spread.Maps (spread.q3 4 4) ∧ spread.SpreadOk 4 4) ∧
    (State.reset.Maps (State.reset.q3 4 4) ∧
      InBlock 4 4 fun r c => 0 ≤ State.reset.q3Sample r c ∧ State.reset.q3Sample r c ≤ 32760) := by
  refine ⟨⟨by decide, by decide, maps_of_nil rfl _, ?_⟩,
    ⟨by decide, maps_of_nil rfl _, witness_SubavgSubtractsTheRoundedMean.2.2.2⟩, ⟨by decide, maps_of_nil rfl _, ?_⟩,
    maps_of_nil rfl _, ?_⟩
  · rw [← State.q3Avg_eq_meanOf (txs := 0) (by decide)]
    decide +kernel
  · have h : InBlock 4 4 fun r c => -32768 ≤ spread.q3Sample r c ∧ spread.q3Sample r c ≤ -1 :=
      q3Block_between (by decide +kernel)
    intro r c hr hc r' c' hr' hc'
    have h1 := h r c hr hc
    have h2 := h r' c' hr' hc'
    omega
  · exact q3Block_between (by decide +kernel)

theorem witness_RoundedMeanLiesBetweenMinAndMax : resolve 3 = .block 32 32 ∧
    InBlock 32 32 fun _ _ => (-5 : Int) ≤ -5 ∧ (-5 : Int) ≤ 7 := ⟨by decide, fun _ _ _ _ => ⟨by norm_num, by norm_num⟩⟩

theorem witness_SubavgLeavesTheRoundingResidue : sa2.halted = false ∧ resolve 0 = .block 4 4 ∧
    ∃ t, exec (.subavg 0) sa2 = .next t := ⟨by decide, by decide, _, next_after (by decide +kernel)⟩

theorem witness_SubavgIsIdempotent : sa2.mem.wf = true ∧ ∃ t, exec (.subavg 0) sa2 = .next t :=
  ⟨by decide +kernel, _, next_after (by decide +kernel)⟩

theorem witness_StoreOrderDoesNotMatter : (sa2.q3 4 4).Unfolded ∧ sa2.mem.wf = true ∧
    (positions 4 4).reverse.Perm (positions (sa2.q3 4 4).w (sa2.q3 4 4).h) :=
  ⟨sa2.q3_unfolded (by decide) (by decide), by decide +kernel, List.reverse_perm _⟩

/-- The premises the six `SUBS` statements share, at 4 by 4. -/
theorem subs_ready (s : State) (hs : s.halted = false) (hu : s.unmapped = []) (x : Access)
    (hm : (s.q3 4 4).meets x = false) :
    s.halted = false ∧ resolve 0 = .block 4 4 ∧ s.Maps (s.q3 4 4) ∧ s.Maps x ∧ (s.q3 4 4).Apart x :=
  ⟨hs, by decide, maps_of_nil hu _, maps_of_nil hu _, Access.meets_eq_false.mp hm⟩

theorem witness_Subs420LbdStoresDoubledSums : commonPlane.halted = false ∧ resolve 0 = .block 4 4 ∧
    commonPlane.Maps (commonPlane.q3 4 4) ∧ commonPlane.Maps ⟨commonPlane.srcPlane .one, 2 * 4, 2 * 4⟩ ∧
    (commonPlane.q3 4 4).Apart ⟨commonPlane.srcPlane .one, 2 * 4, 2 * 4⟩ :=
  subs_ready _ (by decide) rfl _ (by decide +kernel)

theorem witness_Subs422LbdStoresQuadrupledPairs : commonPlane.halted = false ∧ resolve 0 = .block 4 4 ∧
    commonPlane.Maps (commonPlane.q3 4 4) ∧ commonPlane.Maps ⟨commonPlane.srcPlane .one, 2 * 4, 4⟩ ∧
    (commonPlane.q3 4 4).Apart ⟨commonPlane.srcPlane .one, 2 * 4, 4⟩ :=
  subs_ready _ (by decide) rfl _ (by decide +kernel)

theorem witness_Subs444LbdStoresEightfoldSamples : commonPlane.halted = false ∧ resolve 0 = .block 4 4 ∧
    commonPlane.Maps (commonPlane.q3 4 4) ∧ commonPlane.Maps ⟨commonPlane.srcPlane .one, 4, 4⟩ ∧
    (commonPlane.q3 4 4).Apart ⟨commonPlane.srcPlane .one, 4, 4⟩ :=
  subs_ready _ (by decide) rfl _ (by decide +kernel)

/-- A check of every luma sample of a region. -/
theorem luma_all {s : State} {size : ElemSize} {w h : Nat} {m : Int}
    (ha : ((positions w h).all fun p => decide (s.lumaSample size p.1 p.2 ≤ m)) = true) :
    InBlock w h fun y x => s.lumaSample size y x ≤ m :=
  inBlock_of_all (fun y x => decide (s.lumaSample size y x ≤ m)) (fun _ _ => by simp) ha

theorem witness_Subs420HbdStoresDoubledSums : (wide.halted = false ∧ resolve 0 = .block 4 4 ∧
    wide.Maps (wide.q3 4 4) ∧ wide.Maps ⟨wide.srcPlane .two, 2 * 4, 2 * 4⟩ ∧
    (wide.q3 4 4).Apart ⟨wide.srcPlane .two, 2 * 4, 2 * 4⟩) ∧
    InBlock (2 * 4) (2 * 4) fun y x => wide.lumaSample .two y x ≤ 4095 :=
  ⟨subs_ready _ (by decide) rfl _ (by decide +kernel), luma_all (by decide +kernel)⟩

theorem witness_Subs422HbdStoresQuadrupledPairs : (wide.halted = false ∧ resolve 0 = .block 4 4 ∧
    wide.Maps (wide.q3 4 4) ∧ wide.Maps ⟨wide.srcPlane .two, 2 * 4, 4⟩ ∧
    (wide.q3 4 4).Apart ⟨wide.srcPlane .two, 2 * 4, 4⟩) ∧
    InBlock (2 * 4) 4 fun y x => wide.lumaSample .two y x ≤ 4095 :=
  ⟨subs_ready _ (by decide) rfl _ (by decide +kernel), luma_all (by decide +kernel)⟩

theorem witness_Subs444HbdStoresEightfoldSamples : (wide.halted = false ∧ resolve 0 = .block 4 4 ∧
    wide.Maps (wide.q3 4 4) ∧ wide.Maps ⟨wide.srcPlane .two, 4, 4⟩ ∧
    (wide.q3 4 4).Apart ⟨wide.srcPlane .two, 4, 4⟩) ∧
    InBlock 4 4 fun y x => wide.lumaSample .two y x ≤ 4095 :=
  ⟨subs_ready _ (by decide) rfl _ (by decide +kernel), luma_all (by decide +kernel)⟩

/-- A luma sample of 4096 at (1, 1), read by every format. -/
def tooLarge : State := planes (rowAt 0x112 [4096] [])

/-- The three clauses: 4:2:0, 4:2:2, 4:4:4. -/
theorem witness_SubsHbdRefusesLargeSamples :
    (tooLarge.halted = false ∧ resolve 0 = .block 4 4 ∧ tooLarge.Maps (tooLarge.q3 4 4)) ∧
    (tooLarge.Maps ⟨tooLarge.srcPlane .two, 2 * 4, 2 * 4⟩ ∧ (tooLarge.q3 4 4).Apart ⟨tooLarge.srcPlane .two, 2 * 4, 2 * 4⟩) ∧
    (tooLarge.Maps ⟨tooLarge.srcPlane .two, 2 * 4, 4⟩ ∧ (tooLarge.q3 4 4).Apart ⟨tooLarge.srcPlane .two, 2 * 4, 4⟩) ∧
    (tooLarge.Maps ⟨tooLarge.srcPlane .two, 4, 4⟩ ∧ (tooLarge.q3 4 4).Apart ⟨tooLarge.srcPlane .two, 4, 4⟩) ∧
    (1 < 4 ∧ 1 < 2 * 4 ∧ 4095 < tooLarge.lumaSample .two 1 1) :=
  ⟨⟨by decide, by decide, maps_of_nil rfl _⟩, ⟨maps_of_nil rfl _, Access.meets_eq_false.mp (by decide +kernel)⟩,
    ⟨maps_of_nil rfl _, Access.meets_eq_false.mp (by decide +kernel)⟩,
    ⟨maps_of_nil rfl _, Access.meets_eq_false.mp (by decide +kernel)⟩, by decide +kernel⟩

/-- All six forms, after reset: every base is 0. -/
theorem witness_SubsRefusesOverlap (f : ChromaFormat) (size : ElemSize) :
    (∃ i, subsForm i = some (f, size) ∧ resolve i.txs = .block 4 4) ∧ State.reset.halted = false ∧
    State.reset.Maps (State.reset.q3 4 4) ∧ State.reset.Maps (State.reset.luma f size 4 4) ∧
    (State.reset.q3 4 4).Touches 0 ∧ (State.reset.luma f size 4 4).Touches 0 := by
  refine ⟨?_, by decide, maps_of_nil rfl _, maps_of_nil rfl _, ⟨0, 0, 0, by decide, by decide, by decide, by decide⟩, ?_⟩
  · cases f <;> cases size
    · exact ⟨.subs420lbd 0, by decide, by decide⟩
    · exact ⟨.subs420hbd 0, by decide, by decide⟩
    · exact ⟨.subs422lbd 0, by decide, by decide⟩
    · exact ⟨.subs422hbd 0, by decide, by decide⟩
    · exact ⟨.subs444lbd 0, by decide, by decide⟩
    · exact ⟨.subs444hbd 0, by decide, by decide⟩
  · cases f <;> cases size <;> exact ⟨0, 0, 0, by decide, by decide, by decide, by decide⟩

/-- A region of 8 by 8 luma bytes 255. -/
def bright : State := planes (bytesAt 0x100 (List.replicate 64 255) [])

/-- Both clauses: a constant region, and 4:4:4. -/
theorem witness_SubsScalesAConstantPlaneByEight :
    (subsForm (.subs420lbd 0) = some (.f420, .one) ∧ bright.halted = false ∧ resolve (Instr.subs420lbd 0).txs = .block 4 4 ∧
      (∃ t, exec (.subs420lbd 0) bright = .next t) ∧
      InBlock (bright.luma .f420 .one 4 4).w (bright.luma .f420 .one 4 4).h
        fun y x => bright.lumaSample .one y x = (255 : Nat)) ∧
    (subsForm (.subs444lbd 0) = some (.f444, .one) ∧ ∃ t, exec (.subs444lbd 0) bright = .next t) :=
  ⟨⟨by decide, by decide, by decide, ⟨_, next_after (by decide +kernel)⟩,
    inBlock_of_all (fun y x => decide (bright.lumaSample .one y x = (255 : Nat))) (fun _ _ => of_decide_eq_true)
      (by decide +kernel)⟩, by decide, _, next_after (by decide +kernel)⟩

theorem witness_SubsOutputsStayInRange :
    (subsForm (.subs420lbd 0) = some (.f420, .one) ∧ commonPlane.halted = false ∧ ∃ t, exec (.subs420lbd 0) commonPlane = .next t) ∧
    (subsForm (.subs444hbd 0) = some (.f444, .two) ∧ wide.halted = false ∧ ∃ t, exec (.subs444hbd 0) wide = .next t) :=
  ⟨⟨by decide, by decide, _, next_after (by decide +kernel)⟩, by decide, by decide, _, next_after (by decide +kernel)⟩

/-- The clauses of the ties: q = 32 and q = -32. -/
theorem witness_RoundSigned6IsNearestTiesAway : ((0 : Int) ≤ 32 ∧ (32 : Int) % 64 = 32) ∧ ((-32 : Int) ≤ 0 ∧ (-32 : Int) % 64 = 32) := by
  decide

theorem witness_PixMaxIsChosenByDepth : 10 < 256 ∧ 12 < 256 ∧ (255 < 256 ∧ 255 ≠ 10 ∧ 255 ≠ 12) := by decide

theorem witness_PredLbdAddsTheScaledSample : pr.halted = false ∧ resolve 0 = .block 4 4 ∧ pr.Maps (pr.dst .one 4 4) ∧
    pr.Maps (pr.q3 4 4) ∧ (pr.dst .one 4 4).Apart (pr.q3 4 4) ∧ (pr.dst .one 4 4).Unfolded :=
  ⟨by decide, by decide, maps_of_nil rfl _, maps_of_nil rfl _, Access.meets_eq_false.mp (by decide +kernel),
    Access.folds_eq_false.mp (by decide +kernel)⟩

theorem witness_PredHbdAddsTheScaledSample : (prWide 10#32).halted = false ∧ resolve 0 = .block 4 4 ∧
    (prWide 10#32).Maps ((prWide 10#32).dst .two 4 4) ∧ (prWide 10#32).Maps ((prWide 10#32).q3 4 4) ∧
    ((prWide 10#32).dst .two 4 4).Apart ((prWide 10#32).q3 4 4) ∧ ((prWide 10#32).dst .two 4 4).Unfolded :=
  ⟨by decide, by decide, maps_of_nil rfl _, maps_of_nil rfl _, Access.meets_eq_false.mp (by decide +kernel),
    Access.folds_eq_false.mp (by decide +kernel)⟩

/-- Both grounds: the planes meet (all bases 0), or the destination folds (a stride of 0). -/
theorem witness_PredRefusesOverlap :
    (predSize (.predLbd 0 5) = some .one ∧ State.reset.halted = false ∧ resolve (Instr.predLbd 0 5).txs = .block 4 4 ∧
      State.reset.Maps (State.reset.dst .one 4 4) ∧ State.reset.Maps (State.reset.q3 4 4) ∧
      ¬ (State.reset.dst .one 4 4).Apart (State.reset.q3 4 4)) ∧
    (predSize (.predHbd 0 5) = some .two ∧ ¬ ({ pr with dstStride := 0#32 }.dst .two 4 4).Unfolded) := by
  refine ⟨⟨by decide, by decide, by decide, maps_of_nil rfl _, maps_of_nil rfl _, ?_⟩, by decide, ?_⟩
  · rw [← Access.meets_eq_false]; decide +kernel
  · rw [← Access.folds_eq_false]; decide +kernel

/-- Both clauses; the second with every old sample within the bound. -/
theorem witness_PredAlphaZeroKeepsValidSamples : pr.halted = false ∧ resolve 0 = .block 4 4 ∧
    (∃ t, exec (.predLbd 0 0) pr = .next t) ∧ (prWide 10#32).halted = false ∧
    (∃ t, exec (.predHbd 0 0) (prWide 10#32) = .next t) ∧
    InBlock 4 4 fun r c => (prWide 10#32).dstSample .two r c ≤ pixMaxHbd (prWide 10#32).depth :=
  ⟨by decide, by decide, ⟨_, next_after (by decide +kernel)⟩, by decide, ⟨_, next_after (by decide +kernel)⟩,
    inBlock_of_all (fun r c => decide ((prWide 10#32).dstSample .two r c ≤ pixMaxHbd (prWide 10#32).depth))
      (fun _ _ => of_decide_eq_true) (by decide +kernel)⟩

theorem witness_ScalerArithmeticFits32Bits : (-32768 : Int) ≤ -32768 ∧ (32767 : Int) ≤ 32767 ∧ (0 : Int) ≤ 65535 ∧
    (65535 : Int) ≤ 65535 ∧ (0 : Int) ≤ 4095 := by decide

theorem witness_TheQ3BufferNeverFolds : resolve 3 = .block 32 32 := by decide

/-- Both clauses: after reset both buffers are the same zero bytes. -/
theorem witness_CmpOfEqualBuffersDoesNothing : State.reset.halted = false ∧ resolve 0 = .block 4 4 ∧
    (∀ size, State.reset.Maps ⟨State.reset.srcPlane size, 4, 4⟩ ∧ State.reset.Maps ⟨State.reset.dstPlane size, 4, 4⟩) ∧
    (InBlock 4 4 fun r c => State.reset.mem.byte ((State.reset.srcPlane .one).addr r c) =
      State.reset.mem.byte ((State.reset.dstPlane .one).addr r c)) ∧
    (InBlock 4 4 fun r c => State.reset.mem.byte ((State.reset.srcPlane .two).addr r c) =
        State.reset.mem.byte ((State.reset.dstPlane .two).addr r c) ∧
      State.reset.mem.byte ((State.reset.srcPlane .two).addr r c + 1) =
        State.reset.mem.byte ((State.reset.dstPlane .two).addr r c + 1)) :=
  ⟨by decide, by decide, fun _ => ⟨maps_of_nil rfl _, maps_of_nil rfl _⟩, fun _ _ _ _ => rfl, fun _ _ _ _ => ⟨rfl, rfl⟩⟩

/-- The last element of each plane differs, and no earlier one: the second in the high byte only. -/
def lastDiffers : State := { planes (bytesAt 0x11B [255] []) with dstStride := 8#32 }

theorem earlier_equal {s : State} {size : ElemSize} {r c : Nat}
    (h : ((positions 4 4).all fun p => decide (p.1 < r ∨ p.1 = r ∧ p.2 < c → ∀ k < size.bytes,
      s.mem.byte ((s.srcPlane size).addr p.1 p.2 + k) = s.mem.byte ((s.dstPlane size).addr p.1 p.2 + k))) = true) :
    ∀ r' c' k', r' < 4 → c' < 4 → (r' < r ∨ r' = r ∧ c' < c) → k' < size.bytes →
      s.mem.byte ((s.srcPlane size).addr r' c' + k') = s.mem.byte ((s.dstPlane size).addr r' c' + k') := by
  intro r' c' k' hr hc hlt hk
  rw [List.all_eq_true] at h
  exact of_decide_eq_true (h (r', c') (mem_positions.mpr ⟨hr, hc⟩)) hlt k' hk

/-- `CMP.E8` at the last position, (3, 3). -/
theorem witness_CmpHaltsAtTheFirstMismatch : cmpSize (.cmpE8 0) = some .one ∧ lastDiffers.halted = false ∧
    resolve (Instr.cmpE8 0).txs = .block 4 4 ∧ lastDiffers.Maps ⟨lastDiffers.srcPlane .one, 4, 4⟩ ∧
    lastDiffers.Maps ⟨lastDiffers.dstPlane .one, 4, 4⟩ ∧ 3 < 4 ∧ 0 < ElemSize.one.bytes ∧
    lastDiffers.mem.byte ((lastDiffers.srcPlane .one).addr 3 3 + 0) ≠
      lastDiffers.mem.byte ((lastDiffers.dstPlane .one).addr 3 3 + 0) ∧
    ∀ r' c' k', r' < 4 → c' < 4 → (r' < 3 ∨ r' = 3 ∧ c' < 3) → k' < ElemSize.one.bytes →
      lastDiffers.mem.byte ((lastDiffers.srcPlane .one).addr r' c' + k') =
        lastDiffers.mem.byte ((lastDiffers.dstPlane .one).addr r' c' + k') :=
  ⟨by decide, by decide, by decide, maps_of_nil rfl _, maps_of_nil rfl _, by decide, by decide, by decide +kernel,
    earlier_equal (by decide +kernel)⟩

/-- `CMP.E16` at (1, 3), where only the high byte differs. -/
theorem witness_CmpHaltsAtTheFirstMismatch_wide : cmpSize (.cmpE16 0) = some .two ∧ cm3.halted = false ∧
    1 < ElemSize.two.bytes ∧ cm3.mem.byte ((cm3.srcPlane .two).addr 1 3 + 1) ≠ cm3.mem.byte ((cm3.dstPlane .two).addr 1 3 + 1) ∧
    ∀ r' c' k', r' < 4 → c' < 4 → (r' < 1 ∨ r' = 1 ∧ c' < 3) → k' < ElemSize.two.bytes →
      cm3.mem.byte ((cm3.srcPlane .two).addr r' c' + k') = cm3.mem.byte ((cm3.dstPlane .two).addr r' c' + k') :=
  ⟨by decide, by decide, by decide, by decide +kernel, earlier_equal (by decide +kernel)⟩

/-- A byte outside each store; the values of a negative element. -/
theorem witness_ElementsAreLittleEndian : (1 % 2 ^ 32 ≠ 0xFFFFFFFF % 2 ^ 32 ∧ 1 % 2 ^ 32 ≠ (0xFFFFFFFF + 1) % 2 ^ 32) ∧
    ((255 : Nat) : Int) = -1 % 256 ∧ ((65535 : Nat) : Int) = -1 % 65536 := by decide

theorem witness_PlaneAddressing : (Plane.mk 0x138#32 0xFFFFFFF8#32 .one).stride.toNat + 8 = 2 ^ 32 := by decide

/-- A hole of one byte inside the Q3 buffer's 4 by 4 block. -/
def holed : State := { sa2 with unmapped := [⟨0x202, 1⟩] }

theorem witness_UnmappedRegionsAreRefused : (holed.halted = false ∧ resolve (Instr.subavg 0).txs = .block 4 4 ∧
      commandWrites (.subavg 0) holed 4 4 = some (holed.q3 4 4) ∧ holed.q3 4 4 ∈ commandReads (.subavg 0) holed 4 4 ∧
      (holed.q3 4 4).Touches 0x202 ∧ holed.mapped 0x202 = false) ∧
    ∀ a, a < 2 ^ 32 → State.reset.mapped a = true :=
  ⟨⟨by decide, by decide, rfl, by simp [commandReads], ⟨0, 1, 0, by decide, by decide, by decide, by decide⟩, by decide⟩,
    fun _ _ => rfl⟩

theorem witness_EveryStepKeepsTheInvariant : cm1.Inv ∧ ∃ t, step (cm1.withFetchWord 32 0x00000004) = .next t :=
  ⟨⟨.inl ⟨rfl, rfl⟩, by decide, by decide +kernel⟩, _, next_after (by decide +kernel)⟩

theorem witness_ResetMeetsTheInvariant : Memory.wf [(7, 1#8)] = true := by decide

/-- A command that stores, one that faults, one at a no-op size, an illegal word. -/
theorem witness_EveryCommandKeepsItsFrame : (∃ t, exec (.subavg 0) sa2 = .next t) ∧ (∃ t, exec (.cmpE8 0) cm1 = .next t) ∧
    (resolve (Instr.subavg 4).txs = .noOp ∧ ∃ t, exec (.subavg 4) sa2 = .next t) ∧
    commandWrites (.subavg 0) sa2 4 4 = some (sa2.q3 4 4) ∧ ¬ (sa2.q3 4 4).Touches 0x208 ∧
    commandWrites (.cmpE8 0) cm1 4 4 = none ∧
    ∃ t, (∃ e, decode 0x00000000#32 = .error e) ∧ act (.command 0x00000000#32) sa2 = .next t := by
  refine ⟨⟨_, next_after (by decide +kernel)⟩, ⟨_, next_after (by decide +kernel)⟩,
    ⟨by decide, _, next_after (by decide +kernel)⟩, rfl, ?_, rfl, _, ⟨_, rfl⟩, next_after (by decide +kernel)⟩
  rw [← Access.mem_region]
  decide +kernel

/-- Both sides of the equivalence: V-SA2 is ready and completes, V-SA12 does neither. -/
theorem witness_CommandsCompleteExactlyWhenReady :
    (sa2.halted = false ∧ resolve (Instr.subavg 0).txs = .block 4 4 ∧ CommandReady (.subavg 0) sa2 4 4 ∧
      ∃ t, exec (.subavg 0) sa2 = .next t) ∧
    (sa12.halted = false ∧ ¬ CommandReady (.subavg 0) sa12 4 4 ∧ ¬ ∃ t, exec (.subavg 0) sa12 = .next t) := by
  have key : ∀ s : State, s.DifferencesFit 4 4 ↔
      ((positions 4 4).all fun p => fitsQ3 (s.q3Sample p.1 p.2 - s.q3Avg 4 4)) = true :=
    fun s => (differencesFit_iff (txs := 0) (by decide)).symm
  refine ⟨⟨by decide, by decide, ⟨maps_of_nil rfl _, .inr ((key _).mpr (by decide +kernel))⟩, _,
    next_after (by decide +kernel)⟩, by decide, ?_, ?_⟩
  · rintro ⟨-, h | h⟩
    · have := h 3 3 (by decide) (by decide) 0 0 (by decide) (by decide)
      revert this
      decide +kernel
    · rw [key] at h
      revert h
      decide +kernel
  · rintro ⟨t, ht⟩
    have := (refused_of (by decide +kernel) : exec (.subavg 0) sa12 = .refused .range)
    rw [this] at ht
    cases ht

/-- Two states that differ in a register `SUBAVG` does not read and in a byte outside its block. -/
theorem witness_CommandsReadOnlyTheirInputs : sa2.halted = false ∧
    { sa2 with bd := 12#32, mem := sa2.mem.setByte 0x208 1#8 }.halted = false ∧
    SameInputs (.subavg 0) sa2 { sa2 with bd := 12#32, mem := sa2.mem.setByte 0x208 1#8 } := by
  refine ⟨by decide, by decide, rfl, ?_, ?_⟩
  · intro t a h
    cases h
  intro w h hk
  obtain ⟨rfl, rfl⟩ : w = 4 ∧ h = 4 := by
    have hk' : Kernel.block 4 4 = .block w h := hk
    injection hk' with h1 h2
    exact ⟨h1.symm, h2.symm⟩
  refine ⟨rfl, rfl, fun x hx a ha => ?_⟩
  obtain rfl : x = sa2.q3 4 4 := by simpa [commandReads] using hx
  refine (Memory.byte_setByte_other sa2.mem 1#8 ?_).symm
  rw [wrapAddr_of_lt ha.lt]
  rintro rfl
  rw [← Access.mem_region] at ha
  revert ha
  decide +kernel

end Sys2Proof.Tests
end

/-! Reset (10_state.md R38): the registers it clears and the memory it keeps. -/

namespace Sys2Proof.Machine

/-- R38's row for `CAUSE`; the field is read off `STATUS`, so its value follows from `STATUS` being 0. -/
@[simp] theorem applyReset_cause (s : State) : s.applyReset.cause = 0 := by
  rw [State.cause, applyReset_status]
  decide

theorem act_reset (s : State) : act .reset s = .next s.applyReset := rfl

/-- Settles O15: reset answers `applyReset`, whose fields and derived reads are the values of R38's table. -/
theorem resetClearsRegistersAndKeepsMemory : Obligations.ResetClearsRegistersAndKeepsMemory := by
  intro s
  exact ⟨s.applyReset, act_reset s,
    applyReset_status s, applyReset_finfo s, applyReset_bd s,
    applyReset_srcBase s, applyReset_srcStride s, applyReset_dstBase s, applyReset_dstStride s,
    applyReset_q3Base s, applyReset_halted s, applyReset_cause s, applyReset_mem s⟩

end Sys2Proof.Machine

/-! The words that spell no command (30_encoding.md R78): the fields of R70 as arithmetic on the word, the rows of R76
as conditions on those fields, and the fault that a rejected word raises. -/

namespace Sys2Proof.Machine

/-! ### The fields -/

theorem opField_eq (c : Word) : opField c = c.toNat % 16 := by
  simp [opField, slice]

theorem fmtField_eq (c : Word) : fmtField c = c.toNat / 16 % 4 := by
  simp [fmtField, slice, Nat.shiftRight_eq_div_pow]

theorem hbdField_eq (c : Word) : hbdField c = c.toNat / 64 % 2 := by
  simp [hbdField, slice, Nat.shiftRight_eq_div_pow]

theorem zField_eq (c : Word) : zField c = c.toNat / 128 % 2 := by
  simp [zField, slice, Nat.shiftRight_eq_div_pow]

/-- The low byte of a command word is its four fields below `txs` (R70). -/
theorem lowByte_eq_fields (c : Word) :
    c.toNat % 256 = opField c + 16 * fmtField c + 64 * hbdField c + 128 * zField c := by
  rw [opField_eq, fmtField_eq, hbdField_eq, zField_eq]
  omega

theorem opField_lt (c : Word) : opField c < 16 := by rw [opField_eq]; omega

theorem fmtField_lt (c : Word) : fmtField c < 4 := by rw [fmtField_eq]; omega

theorem hbdField_lt (c : Word) : hbdField c < 2 := by rw [hbdField_eq]; omega

theorem zField_lt (c : Word) : zField c < 2 := by rw [zField_eq]; omega

/-- A run of bits is a number exactly when its `slice` is. -/
theorem extractLsb'_eq_iff_slice (c : Word) (lo n v : Nat) (hn : 0 < n) (hv : v < 2 ^ n) :
    c.extractLsb' lo n = BitVec.ofNat n v ↔ slice c (lo + n - 1) lo = v := by
  rw [← BitVec.toNat_inj, BitVec.extractLsb'_toNat, BitVec.toNat_ofNat, Nat.mod_eq_of_lt hv, slice,
    show lo + n - 1 + 1 - lo = n by omega]

theorem extractLsb'_op_eq_iff (c : Word) {v : Nat} (hv : v < 16) :
    c.extractLsb' 0 4 = BitVec.ofNat 4 v ↔ opField c = v :=
  extractLsb'_eq_iff_slice c 0 4 v (by decide) hv

theorem le_extractLsb'_op_iff (c : Word) : 5#4 ≤ c.extractLsb' 0 4 ↔ 5 ≤ opField c := by
  rw [BitVec.le_def, BitVec.extractLsb'_toNat]
  rfl

theorem extractLsb'_fmt_eq_iff (c : Word) {v : Nat} (hv : v < 4) :
    c.extractLsb' 4 2 = BitVec.ofNat 2 v ↔ fmtField c = v :=
  extractLsb'_eq_iff_slice c 4 2 v (by decide) hv

theorem extractLsb'_alpha_eq_zero_iff (c : Word) : c.extractLsb' 16 16 = 0#16 ↔ c.toNat / 65536 = 0 := by
  rw [extractLsb'_eq_iff_slice c 16 16 0 (by decide) (by decide), slice_alpha]

/-- A bit is set exactly when its one-bit `slice` is 1. -/
theorem getLsbD_eq_true_iff_slice (c : Word) (k : Nat) : c.getLsbD k = true ↔ slice c k k = 1 := by
  rw [BitVec.getLsbD, Nat.testBit_eq_decide_div_mod_eq, decide_eq_true_eq, slice, Nat.shiftRight_eq_div_pow,
    show k + 1 - k = 1 by omega, pow_one]

/-! ### The rows -/

/-- The words some row of R76 covers, by low byte and upper half: `PRED` alone leaves the upper half free. -/
theorem covered_iff (c : Word) : (∃ r ∈ opRows, r.covers c = true) ↔
    (c.toNat % 256 = 0x03 ∨ c.toNat % 256 = 0x43) ∨
    c.toNat / 65536 = 0 ∧ (c.toNat % 256 = 0x01 ∨
      c.toNat % 256 = 0x02 ∨ c.toNat % 256 = 0x12 ∨ c.toNat % 256 = 0x22 ∨
      c.toNat % 256 = 0x42 ∨ c.toNat % 256 = 0x52 ∨ c.toNat % 256 = 0x62 ∨
      c.toNat % 256 = 0x04 ∨ c.toNat % 256 = 0x44) := by
  simp (disch := decide) only [opRows, List.exists_mem_cons_iff, List.not_mem_nil, covers_fixed, covers_alpha]
  tauto

/-- The words some row of R76 covers, by operation: `SUBAVG`, `SUBS`, `PRED`, `CMP`. -/
theorem covered_iff_fields (c : Word) : (∃ r ∈ opRows, r.covers c = true) ↔ zField c = 0 ∧
    (opField c = 1 ∧ fmtField c = 0 ∧ hbdField c = 0 ∧ c.toNat / 65536 = 0 ∨
      opField c = 2 ∧ fmtField c ≠ 3 ∧ c.toNat / 65536 = 0 ∨
      opField c = 3 ∧ fmtField c = 0 ∨
      opField c = 4 ∧ fmtField c = 0 ∧ c.toNat / 65536 = 0) := by
  have hop := opField_lt c
  have hfmt := fmtField_lt c
  have hhbd := hbdField_lt c
  have hz := zField_lt c
  rw [covered_iff, lowByte_eq_fields]
  omega

/-- A word is rejected exactly when one of the six defects of R78 is in its fields. -/
theorem decode_error_iff_fields (c : Word) : (∃ e, decode c = .error e) ↔
    (opField c = 0 ∨ 5 ≤ opField c) ∨ zField c = 1 ∨ (opField c = 2 ∧ fmtField c = 3) ∨
      (opField c ≠ 2 ∧ fmtField c ≠ 0) ∨ (opField c = 1 ∧ hbdField c = 1) ∨
      (opField c ≠ 3 ∧ c.toNat / 65536 ≠ 0) := by
  have hnone : (∃ e, decode c = .error e) ↔ ¬ ∃ r ∈ opRows, r.covers c = true := by
    simp only [decode_error_iff, not_exists, not_and, Bool.not_eq_true]
  have hhbd := hbdField_lt c
  have hz := zField_lt c
  rw [hnone, covered_iff_fields]
  omega

/-! ### The fault -/

/-- The record of an illegal word: `STATUS` has `HALT` 1 and `CAUSE` 2 (60_exceptions.md R151, R154). -/
theorem takeFault_illegalCommand (c : Word) (s : State) :
    takeFault s .illegalCommand c = { s with status := 0x00000021#32, finfo := c } := rfl

theorem executeWord_of_error {c : Word} {e : DecodeError} {s : State} (hd : decode c = .error e)
    (hs : s.halted = false) : executeWord c s = .next (takeFault s .illegalCommand c) := by
  simp [executeWord, hs, hd]

/-- Settles O3: the six defects are those of `decode_error_iff_fields`, read off the word's bits; the word 0 has `op` 0;
and a rejected word takes the fault. -/
theorem rejectedWordsAreTheListedOnes : Obligations.RejectedWordsAreTheListedOnes := by
  refine ⟨fun c => ?_, ?_, fun c s ⟨e, he⟩ hs => ?_⟩
  · have hz : c.getLsbD 7 = true ↔ zField c = 1 := getLsbD_eq_true_iff_slice c 7
    have hhbd : c.getLsbD 6 = true ↔ hbdField c = 1 := getLsbD_eq_true_iff_slice c 6
    simp (disch := decide) only [ne_eq, hz, hhbd, extractLsb'_op_eq_iff, le_extractLsb'_op_iff, extractLsb'_fmt_eq_iff,
      extractLsb'_alpha_eq_zero_iff]
    exact decode_error_iff_fields c
  · exact (decode_error_iff_fields 0#32).mpr (.inl (.inl rfl))
  · rw [act_command, executeWord_of_error he hs, takeFault_illegalCommand]

end Sys2Proof.Machine

/-! The range refusal of `SUBAVG` (40_dc_remover.md R93): when a writing kernel refuses for range, the bounds of the
rounded mean, and why a small spread of the samples keeps every difference in range. -/

namespace Sys2Proof.Machine

/-! ### The refusal -/

/-- A writing kernel refuses for range when that is the only ground it has. -/
theorem runWriting_range_iff {s : State} {out : Access} {others : List Access} {ov ok : Bool}
    {val : Nat → Nat → Int} : runWriting s out others ov ok val = .refused .range ↔
      (s.Maps out ∧ ∀ x ∈ others, s.Maps x) ∧ ov = false ∧ ¬ ok = true := by
  by_cases hm : s.Maps out ∧ ∀ x ∈ others, s.Maps x
  · rw [and_iff_right hm]
    cases ov with
    | true => simp [runWriting_overlap hm]
    | false =>
      cases ok with
      | true => simp [runWriting_next_iff.mpr ⟨hm, rfl, rfl, rfl⟩]
      | false => simp [runWriting_range hm]
  · simp [runWriting_unmapped_iff.mpr hm, hm]

theorem exec_subavg (txs : Nat) (s : State) : exec (.subavg txs) s = execSubavg txs s := rfl

/-- `SUBAVG` at a supported size, on a running block: when it refuses for range. -/
theorem execSubavg_range_iff {txs w h : Nat} {s : State} (hs : s.halted = false) (hk : resolve txs = .block w h) :
    execSubavg txs s = .refused .range ↔ s.Maps (s.q3 w h) ∧ ¬ s.DifferencesFit w h := by
  rw [execSubavg, runCommand_block hs hk, subtractMean, runWriting_range_iff, differencesFit_iff hk]
  simp

theorem State.not_differencesFit_iff {s : State} {w h : Nat} : ¬ s.DifferencesFit w h ↔ ∃ r c, r < h ∧ c < w ∧
    (s.q3Sample r c - meanOf w h s.q3Sample < -32768 ∨ 32767 < s.q3Sample r c - meanOf w h s.q3Sample) := by
  simp only [State.DifferencesFit, InBlock, not_forall, not_and_or, not_le, exists_prop]

/-! ### The bounds of the mean -/

theorem sumBlock_const (w h : Nat) (v : Int) : sumBlock w h (fun _ _ => v) = v * (w * h : Nat) := by
  simp only [sumBlock, Finset.sum_const, Finset.card_range, nsmul_eq_mul]
  push_cast
  ring

theorem sumBlock_mono {w h : Nat} {f g : Nat → Nat → Int} (hfg : InBlock w h fun r c => f r c ≤ g r c) :
    sumBlock w h f ≤ sumBlock w h g :=
  Finset.sum_le_sum fun r hr => Finset.sum_le_sum fun c hc => hfg r c (Finset.mem_range.mp hr) (Finset.mem_range.mp hc)

/-- The offset of half the area lifts the sum, so rounding cannot fall below a lower bound of the samples. -/
theorem le_meanOf {w h : Nat} {f : Nat → Nat → Int} {lo : Int} (ha : 0 < w * h)
    (hf : InBlock w h fun r c => lo ≤ f r c) : lo ≤ meanOf w h f := by
  have hsum : lo * (w * h : Nat) ≤ sumBlock w h f := sumBlock_const w h lo ▸ sumBlock_mono hf
  rw [meanOf, Int.le_ediv_iff_mul_le (by exact_mod_cast ha)]
  omega

/-- The offset is less than the area, so rounding cannot pass an upper bound of the samples. -/
theorem meanOf_le {w h : Nat} {f : Nat → Nat → Int} {hi : Int} (ha : 0 < w * h)
    (hf : InBlock w h fun r c => f r c ≤ hi) : meanOf w h f ≤ hi := by
  have hsum : sumBlock w h f ≤ hi * (w * h : Nat) := sumBlock_const w h hi ▸ sumBlock_mono hf
  rw [meanOf, ← Int.lt_add_one_iff, Int.ediv_lt_iff_lt_mul (by exact_mod_cast ha), add_mul, one_mul]
  omega

/-! ### The sufficient conditions -/

/-- All samples within 32767 of one sample put the mean within 32767 of it too (40_dc_remover.md R93). -/
theorem State.SpreadOk.differencesFit {s : State} {w h : Nat} (ha : 0 < w * h) (hsp : s.SpreadOk w h) :
    s.DifferencesFit w h := by
  intro r c hr hc
  have hlo : s.q3Sample r c - 32767 ≤ meanOf w h s.q3Sample :=
    le_meanOf ha fun r' c' hr' hc' => by linarith [hsp r c hr hc r' c' hr' hc']
  have hhi : meanOf w h s.q3Sample ≤ s.q3Sample r c + 32767 :=
    meanOf_le ha fun r' c' hr' hc' => by linarith [hsp r' c' hr' hc' r c hr hc]
  omega

/-- The outputs of the subsampler on in-domain pixels have a small enough spread (40_dc_remover.md R93). -/
theorem State.spreadOk_of_inBlock {s : State} {w h : Nat}
    (hb : InBlock w h fun r c => 0 ≤ s.q3Sample r c ∧ s.q3Sample r c ≤ 32760) : s.SpreadOk w h := by
  intro r c hr hc r' c' hr' hc'
  have hupper := (hb r c hr hc).2
  have hlower := (hb r' c' hr' hc').1
  omega

/-- Settles O24: over a mapped block the refusal is `¬ DifferencesFit`, which the bounds of the mean exclude for a small
spread, and so for samples in 0 to 32760. -/
theorem subavgRefusesWhenADifferenceDoesNotFit : Obligations.SubavgRefusesWhenADifferenceDoesNotFit := by
  intro txs w h s hs hk hm
  have hrange : exec (.subavg txs) s = .refused .range ↔ ¬ s.DifferencesFit w h := by
    rw [exec_subavg, execSubavg_range_iff hs hk, and_iff_right hm]
  have hspread : s.SpreadOk w h → exec (.subavg txs) s ≠ .refused .range := by
    obtain ⟨hw, -, hh, -⟩ := resolve_le hk
    exact fun hsp href => hrange.mp href (hsp.differencesFit (Nat.mul_pos (by omega) (by omega)))
  exact ⟨hrange.trans State.not_differencesFit_iff, hspread, fun hb => hspread (State.spreadOk_of_inBlock hb)⟩

end Sys2Proof.Machine

/-! The size dispatch (43_size_dispatch_mux.md R132, R134, R135): what `Resolve` answers for an index and what a command
does with the answer. -/

namespace Sys2Proof.Machine

/-! ### The reduced index -/

/-- The reduced index is inside the table, so the lookup never fails (43_size_dispatch_mux.md R136 (b)). -/
theorem exists_catalog_entry (txs : Nat) : ∃ w h, catalog[txs % 19]? = some (w, h) := by
  have hlt : txs % 19 < catalog.length := by
    rw [catalog_length]
    exact Nat.mod_lt _ (by decide)
  exact ⟨_, _, List.getElem?_eq_getElem hlt⟩

/-- `Resolve` of an index from the catalog's entry at the reduced index (43_size_dispatch_mux.md R135). -/
theorem resolve_of_entry {txs w h : Nat} (he : catalog[txs % 19]? = some (w, h)) :
    resolve txs = if w ≤ 32 ∧ h ≤ 32 then .block w h else .noOp := by
  rw [resolve, catalog_length, he]
  rfl

/-- The size index counts modulo the table length (43_size_dispatch_mux.md R134). -/
theorem resolve_mul_add (j k : Nat) : resolve (19 * j + k) = resolve k := by
  rw [resolve_mod, Nat.mul_add_mod, ← resolve_mod]

/-- How many indices below `n` reduce to `i`: one for each whole round of the table, and one more when the last, partial
round reaches `i`. -/
theorem length_filter_mod_eq {r i : Nat} (n : Nat) (hi : i < r) :
    ((List.range n).filter fun txs => decide (txs % r = i)).length = n / r + if i < n % r then 1 else 0 := by
  have hcount := Nat.count_modEq_card n (Nat.zero_lt_of_lt hi) i
  simpa only [Nat.count, List.countP_eq_length_filter, Nat.ModEq, Nat.mod_eq_of_lt hi] using hcount

/-! ### What a command does with it -/

/-- The dispatch stage sees of the index only what it resolves to. -/
theorem runCommand_congr {m n : Nat} (h : resolve m = resolve n) (s : State) (k : Nat → Nat → Result) :
    runCommand s m k = runCommand s n k := by
  rw [runCommand, runCommand, h]

/-- Every command goes through the dispatch stage, so none does anything when the no-op kernel is selected
(43_size_dispatch_mux.md R132). -/
theorem exec_noOp {i : Instr} (h : resolve i.txs = .noOp) (s : State) : exec i s = .next s := by
  cases i <;> exact runCommand_noOp h _

/-- Settles O20: the entry exists because the reduced index is inside the table, and `resolve` is R135 on it. -/
theorem resolveLooksUpTheReducedIndex : Obligations.ResolveLooksUpTheReducedIndex := by
  intro txs
  obtain ⟨w, h, he⟩ := exists_catalog_entry txs
  exact ⟨w, h, he, resolve_of_entry he⟩

/-- Settles O21: each command is its kernel behind the dispatch stage, which cannot tell `19 * j + k` from `k`; and
256 is 13 rounds of the table and 9 indices more. -/
theorem sizeIndexCountsModulo19 : Obligations.SizeIndexCountsModulo19 := by
  refine ⟨fun j k a s => ?_, catalog_length, fun i hi => ?_⟩
  · have same (kernel : Nat → Nat → Result) : runCommand s (19 * j + k) kernel = runCommand s k kernel :=
      runCommand_congr (resolve_mul_add j k) s kernel
    exact ⟨same _, same _, same _, same _, same _, same _, same _, same _, same _, same _, same _⟩
  · rw [catalog_length, length_filter_mod_eq 256 hi]
    split <;> split <;> omega

/-- Settles O22: a side above 32 makes `resolve` select the no-op kernel. -/
theorem unsupportedSizesDoNothing : Obligations.UnsupportedSizesDoNothing := by
  intro i s w h he hside
  have hno : resolve i.txs = .noOp := by
    rw [resolve_of_entry he, if_neg (by omega)]
  exact exec_noOp hno s

end Sys2Proof.Machine

/-! The comparator (44_parity_comparator.md R142): elements as bit patterns, the first mismatch in raster order, and what
a compare that finds it does. -/

namespace Sys2Proof.Machine

/-! ### Elements as bit patterns -/

/-- An element's bytes and its little-endian value determine each other (20_memory.md R51). -/
theorem Memory.load_eq_load_iff {m : Memory} {es : ElemSize} {a b : Nat} :
    m.load es a = m.load es b ↔ ∀ k < es.bytes, m.byte (a + k) = m.byte (b + k) := by
  cases es with
  | one => simp [Memory.load_one, ElemSize.bytes, BitVec.toNat_inj]
  | two =>
    have hlow_a := (m.byte a).isLt
    have hlow_b := (m.byte b).isLt
    simp only [Memory.load_two, ElemSize.bytes, Nat.forall_lt_succ_left, Nat.not_lt_zero, false_implies, implies_true,
      and_true, Nat.add_zero, Nat.zero_add, ← BitVec.toNat_inj]
    omega

/-- The comparator sees two elements as equal exactly when all their bytes are (44_parity_comparator.md R142). -/
theorem twinsDiffer_eq_false_iff {s : State} {size : ElemSize} {r c : Nat} : s.twinsDiffer size r c = false ↔
    ∀ k < size.bytes, s.mem.byte ((s.srcPlane size).addr r c + k) = s.mem.byte ((s.dstPlane size).addr r c + k) := by
  rw [State.twinsDiffer, bne_eq_false_iff_eq]
  exact Memory.load_eq_load_iff

/-! ### The first mismatch -/

/-- A search along a list ordered by `R` finds the element that satisfies `p` and has none before it. -/
theorem find?_eq_some_of_pairwise {α : Type} {R : α → α → Prop} {p : α → Bool} {l : List α} {a : α}
    (ho : l.Pairwise R) (hm : a ∈ l) (ha : p a = true) (hb : ∀ b ∈ l, R b a → p b = false) : l.find? p = some a := by
  induction ho with
  | nil => cases hm
  | @cons x xs hx _ ih =>
    rcases List.mem_cons.mp hm with rfl | htail
    · exact List.find?_cons_of_pos ha
    · have hskip : p x = false := hb x List.mem_cons_self (hx a htail)
      rw [List.find?_cons_of_neg (by simp [hskip])]
      exact ih htail fun b hmem => hb b (List.mem_cons_of_mem x hmem)

/-- The position the comparator finds is the one that differs where every earlier position of the block, rows outermost,
is equal (44_parity_comparator.md R142). -/
theorem firstMismatch_eq_some {s : State} {size : ElemSize} {w h r c : Nat} (hr : r < h) (hc : c < w)
    (hdiff : s.twinsDiffer size r c = true)
    (hearlier : ∀ r' c', r' < h → c' < w → (r' < r ∨ r' = r ∧ c' < c) → s.twinsDiffer size r' c' = false) :
    s.firstMismatch size w h = some (r, c) := by
  refine find?_eq_some_of_pairwise (positions_ordered w h) (mem_positions.mpr ⟨hr, hc⟩) hdiff ?_
  rintro ⟨r', c'⟩ hmem hlt
  obtain ⟨hr', hc'⟩ := mem_positions.mp hmem
  exact hearlier r' c' hr' hc' hlt

/-! ### The fault -/

/-- The record of a mismatch: `STATUS` has `HALT` 1 and `CAUSE` 1 (60_exceptions.md R152, R154). -/
theorem takeFault_parityMismatch (v : Word) (s : State) :
    takeFault s .parityMismatch v = { s with status := 0x00000011#32, finfo := v } := rfl

/-- Both compares are the one kernel at their element size (44_parity_comparator.md R140, R141). -/
theorem exec_of_cmpSize {i : Instr} {size : ElemSize} (hi : cmpSize i = some size) (s : State) :
    exec i s = runCommand s i.txs (compareTwins size s) := by
  cases i with
  | cmpE8 txs => cases hi; rfl
  | cmpE16 txs => cases hi; rfl
  | _ => cases hi

/-- Settles O48: the byte conditions make (r, c) the comparator's first mismatch, and a supported block's sides of at
most 32 bound the record. -/
theorem cmpHaltsAtTheFirstMismatch : Obligations.CmpHaltsAtTheFirstMismatch := by
  intro i size w h r c k s hi hs hk hmapA hmapB hr hc hbytes hdiff hearlier
  obtain ⟨-, hw, -, hh⟩ := resolve_le hk
  have hdiffer : s.twinsDiffer size r c = true :=
    Bool.of_not_eq_false fun heq => hdiff (twinsDiffer_eq_false_iff.mp heq k hbytes)
  have hfirst : s.firstMismatch size w h = some (r, c) :=
    firstMismatch_eq_some hr hc hdiffer fun r' c' hr' hc' hlt =>
      twinsDiffer_eq_false_iff.mpr fun k' => hearlier r' c' k' hr' hc' hlt
  refine ⟨?_, by omega⟩
  rw [exec_of_cmpSize hi, runCommand_block hs hk, ← mismatchInfo_eq (by omega : c < 32), ← takeFault_parityMismatch]
  exact compareTwins_next_iff.mpr ⟨⟨hmapA, hmapB⟩, .inr ⟨r, c, hfirst, rfl⟩⟩

end Sys2Proof.Machine

/-! Exceptions (60_exceptions.md R154, R155): what taking a fault writes, and what a halted block still does for the
host. -/

namespace Sys2Proof.Machine

/-- Settles O17: each cause's code gives the constant that `STATUS` becomes. -/
theorem takingAFaultWritesTheRecordOnly : Obligations.TakingAFaultWritesTheRecordOnly :=
  fun s info => ⟨takeFault_parityMismatch info s, takeFault_illegalCommand info s⟩

/-! ### Host accesses -/

/-- Step 1 of R77 comes before decoding: a halted block ignores legal and illegal words alike. -/
theorem executeWord_halted {s : State} (hs : s.halted = true) (c : Word) : executeWord c s = .next s :=
  if_pos hs

theorem act_memWrite_mapped {s : State} {a : Word} (hm : s.mapped a.toNat = true) (v : Byte) :
    act (.memWrite a v) s = .next { s with mem := s.mem.setByte a.toNat v } :=
  if_pos hm

theorem act_memRead_mapped {s : State} {a : Word} (hm : s.mapped a.toNat = true) :
    act (.memRead a) s = .next (s.answer ((s.mem.byte a.toNat).setWidth 32)) :=
  if_pos hm

/-- What `BD` stores, bits 7:0 of the written value (10_state.md R32), as a mask. -/
theorem ofNat_slice_depth (v : Word) : BitVec.ofNat 32 (slice v (Config.bdBits - 1) 0) = v &&& 0xFF#32 := by
  have hslice : slice v (Config.bdBits - 1) 0 = (v &&& 0xFF#32).toNat := (and_maskAlpha v).symm
  rw [hslice, BitVec.ofNat_toNat, BitVec.setWidth_eq]

/-- A write to a register other than `CMD` changes no other register (10_state.md R33). -/
theorem readReg_of_writeReg_ne {r q : Reg} {v : Word} {s t : State} (hcmd : r ≠ .cmd) (hq : q ≠ r)
    (h : writeReg r v s = .next t) : t.readReg q = s.readReg q := by
  cases r with
  | cmd => exact absurd rfl hcmd
  | _ => cases h; cases q <;> trivial

/-- A write to `BD` or an operand register is accepted and is what the register then reads as, `BD` in its low byte
(10_state.md R32, R33). -/
theorem exists_writeReg_readReg {r : Reg} (hcmd : r ≠ .cmd) (hstatus : r ≠ .status) (hfinfo : r ≠ .finfo) (v : Word)
    (s : State) : ∃ t, writeReg r v s = .next t ∧ t.readReg r = if r = .bd then v &&& 0xFF#32 else v := by
  cases r with
  | cmd => exact absurd rfl hcmd
  | status => exact absurd rfl hstatus
  | finfo => exact absurd rfl hfinfo
  | bd => exact ⟨_, rfl, ofNat_slice_depth v⟩
  | _ => exact ⟨_, rfl, rfl⟩

/-! ### The fault record -/

/-- No write to a register other than `CMD` reaches the fault record (10_state.md R30, R31). -/
theorem writeReg_keeps_record {r : Reg} {v : Word} {s t : State} (hcmd : r ≠ .cmd) (h : writeReg r v s = .next t) :
    t.status = s.status ∧ t.finfo = s.finfo := by
  cases r with
  | cmd => exact absurd rfl hcmd
  | _ => cases h; exact ⟨rfl, rfl⟩

/-- Of the host's actions only reset changes the fault record of a halted block (R155). -/
theorem act_halted_keeps_record {a : HostAction} {s t : State} (hs : s.halted = true) (ha : a ≠ .reset)
    (h : act a s = .next t) : t.status = s.status ∧ t.finfo = s.finfo := by
  obtain ⟨c, -, hc⟩ | ⟨r, v, hcmd, -, hw⟩ | ⟨_, _, _, -, rfl⟩ | ⟨_, _, v, -, rfl⟩ | ⟨b, v, -, -, rfl⟩ |
    ⟨b, -, -, rfl⟩ | ⟨hreset, -⟩ := act_cases h
  · rw [executeWord_halted hs] at hc
    cases hc
    exact ⟨rfl, rfl⟩
  · exact writeReg_keeps_record hcmd hw
  · exact ⟨rfl, rfl⟩
  · exact ⟨answer_status s v, answer_finfo s v⟩
  · exact ⟨rfl, rfl⟩
  · exact ⟨answer_status s _, answer_finfo s _⟩
  · exact absurd hreset ha

theorem verdict_halted {s : State} (hs : s.halted = true) : verdict (.next s) = .failed :=
  if_pos hs

/-- Settles O14: a halted block ignores `CMD`, the host's other accesses do not look at `HALT`, and none but reset
reaches `STATUS`, of which `HALT` is a bit. -/
theorem haltedBlockOnlyObeysTheHost : Obligations.HaltedBlockOnlyObeysTheHost := by
  intro s hs
  refine ⟨fun c => ?command, fun r => act_rd r s, fun r v hcmd hstatus hfinfo => ?store,
    fun a v hm => ⟨act_memWrite_mapped hm v, act_memRead_mapped hm⟩, fun a t ha h => ?record,
    ⟨s.applyReset, act_reset s, applyReset_halted s⟩, verdict_halted hs⟩
  case command => rw [act_command, executeWord_halted hs]
  case store =>
    obtain ⟨t, ht, hread⟩ := exists_writeReg_readReg hcmd hstatus hfinfo v s
    exact ⟨t, (act_wr r v s).trans ht, hread, fun q hq => readReg_of_writeReg_ne hcmd hq ht⟩
  case record =>
    obtain ⟨hstatus, hfinfo⟩ := act_halted_keeps_record hs ha h
    exact ⟨hstatus, hfinfo, (halted_of_status hstatus).trans hs⟩

end Sys2Proof.Machine

/-! The command word, both ways (30_encoding.md R74 to R76): decoding an encoded command, encoding a decoded word, the
disjoint rows of the opcode map, and how many words are legal. -/

namespace Sys2Proof.Machine

/-! ### Decoding an encoded command -/

/-- The upper half of a word and its `alpha` field hold the same 16 bits (30_encoding.md R75). -/
theorem zext16_sext16 {u : Nat} (hu : u < 65536) : zext 16 (sext 16 u) = u := by
  zify
  rw [zext_cast]
  unfold sext
  norm_num
  split <;> omega

theorem txsField_encode {i : Instr} (hwf : i.wf = true) : txsField (encode i) = i.txs := by
  have hp := pattern_lt i
  have ht := wf_txs hwf
  rw [txsField_eq, encode_parts hwf]
  omega

theorem alphaField_encode {i : Instr} (hwf : i.wf = true) : alphaField (encode i) = i.alpha := by
  have hp := pattern_lt i
  have ht := wf_txs hwf
  have hhigh : (encode i).toNat / 65536 = zext 16 i.alpha := by
    rw [encode_parts hwf]
    omega
  obtain ⟨hlo, hhi⟩ := wf_alpha hwf
  rw [alphaField_eq, hhigh, sext_zext16 hlo hhi]

/-- A row covers the words with its match in the low byte and, unless `alpha` is an operand, 0 in the upper half
(30_encoding.md R76). -/
theorem covers_of_parts {r : OpRow} {c : Word} (hlow : c.toNat % 256 = r.pattern.toNat)
    (hmask : r.mask = maskAlpha ∨ r.mask = maskFixed ∧ c.toNat / 65536 = 0) : r.covers c = true := by
  rw [OpRow.covers, decide_eq_true_eq, ← BitVec.toNat_inj]
  obtain hm | ⟨hm, hhigh⟩ := hmask
  · rw [hm, and_maskAlpha, hlow]
  · rw [hm, and_maskFixed, hlow, hhigh, Nat.zero_mul, Nat.zero_add]

/-- Some row covers the word of a well-formed command: the one with the command's match. -/
theorem exists_covers_encode {i : Instr} (hwf : i.wf = true) : ∃ r ∈ opRows, r.covers (encode i) = true := by
  obtain ⟨r, hr, hpat, hmask⟩ := row_of_pattern i
  have hp := pattern_lt i
  have ht := wf_txs hwf
  refine ⟨r, hr, covers_of_parts ?_ (hmask.imp_right fun ⟨hm, ha⟩ => ⟨hm, ?_⟩)⟩
  · rw [hpat, encode_parts hwf]
    omega
  · rw [encode_parts hwf, ha, show zext 16 0 = 0 by decide]
    omega

/-- Every row that covers the word of a well-formed command builds that command from the word's fields. -/
theorem build_of_covers_encode {i : Instr} (hwf : i.wf = true) {r : OpRow} (hr : r ∈ opRows)
    (hc : r.covers (encode i) = true) : r.build (txsField (encode i)) (alphaField (encode i)) = i := by
  have hp := pattern_lt i
  have hpat : r.pattern = i.pattern := by
    rw [← BitVec.toNat_inj, ← (covers_rows hr hc).1, encode_parts hwf]
    omega
  rw [txsField_encode hwf, alphaField_encode hwf, build_of_pattern hr hpat]

/-- Settles O1: the decoder finds a row that covers the word, since one exists, and any such row builds the command. -/
theorem decodeOfEncode : Obligations.DecodeOfEncode := by
  intro i hwf
  obtain ⟨r, hfind⟩ : ∃ r, opRows.find? (fun r => r.covers (encode i)) = some r :=
    Option.isSome_iff_exists.mp (List.find?_isSome.mpr (exists_covers_encode hwf))
  have hcovers : r.covers (encode i) = true := List.find?_some (p := fun r : OpRow => r.covers (encode i)) hfind
  rw [decode_of_find hfind, build_of_covers_encode hwf (List.mem_of_find?_eq_some hfind) hcovers]

/-! ### Encoding a decoded word -/

theorem wf_of_fields {i : Instr} (ht : i.txs < 256) (ha : -32768 ≤ i.alpha ∧ i.alpha ≤ 32767) : i.wf = true := by
  have hfits : i.alphaFits = true := by
    simp only [Instr.alphaFits, Config.alphaBits, Bool.and_eq_true]
    norm_num
    omega
  rw [Instr.wf, hfits, Bool.and_true]
  exact decide_eq_true ht

/-- The 16 bits of a decoded command's `alpha` are the word's upper half, whether it is an operand or must be 0. -/
theorem zext16_alpha_of_decode {c : Word} {i : Instr} (hd : decode c = .ok i) :
    zext 16 i.alpha = c.toNat / 65536 := by
  have hc := c.isLt
  obtain ⟨-, -, ha | ⟨ha, hhigh⟩⟩ := decode_ok_fields hd
  · rw [ha, alphaField_eq, zext16_sext16 (by omega)]
  · rw [ha, hhigh]
    rfl

theorem wf_of_decode {c : Word} {i : Instr} (hd : decode c = .ok i) : i.wf = true := by
  obtain ⟨-, ht, ha⟩ := decode_ok_fields hd
  refine wf_of_fields ?_ ?_
  · rw [ht, txsField_eq]
    omega
  · obtain ha | ⟨ha, -⟩ := ha
    · rw [ha, alphaField_eq]
      exact sext16_range _
    · omega

/-- Settles O2: the three parts of the encoded word are the low byte, bits 15:8 and the upper half of the decoded
one. -/
theorem encodeOfDecode : Obligations.EncodeOfDecode := by
  intro c i hd
  have hwf := wf_of_decode hd
  obtain ⟨hlow, ht, -⟩ := decode_ok_fields hd
  refine ⟨hwf, ?_⟩
  rw [← BitVec.toNat_inj, encode_parts hwf, ← hlow, ht, txsField_eq, zext16_alpha_of_decode hd]
  omega

/-! ### The opcode map -/

theorem opRows_patterns_ne : opRows.Pairwise fun r q => r.pattern ≠ q.pattern := by
  decide

/-- Settles O4: the rows differ in their match, and a covered word has the match as its low byte. -/
theorem opcodeRowsAreDisjoint : Obligations.OpcodeRowsAreDisjoint := by
  refine opRows_patterns_ne.imp_of_mem fun {r q} hr hq hne c hboth => hne ?_
  obtain ⟨hcr, hcq⟩ := hboth
  rw [← BitVec.toNat_inj, ← (covers_rows hr hcr).1, ← (covers_rows hq hcq).1]

/-! ### The number of legal words -/

/-- The low bytes of the legal words whose upper half must be 0 (30_encoding.md R76). -/
def fixedBytes : Finset Nat := {0x01, 0x02, 0x12, 0x22, 0x42, 0x52, 0x62, 0x04, 0x44}

/-- The low bytes of the legal words whose upper half is free: `PRED` (R76). -/
def alphaBytes : Finset Nat := {0x03, 0x43}

/-- The legal words by low byte, `txs` byte and upper half. Irreducible, as nothing should enumerate them: what is in it
and how many is said by the two lemmas below. -/
@[irreducible] def legalParts : Finset (Nat × Nat × Nat) :=
  fixedBytes ×ˢ Finset.range 256 ×ˢ {0} ∪ alphaBytes ×ˢ Finset.range 256 ×ˢ Finset.range 65536

theorem mem_legalParts {b t a : Nat} : (b, t, a) ∈ legalParts ↔
    b ∈ fixedBytes ∧ t < 256 ∧ a = 0 ∨ b ∈ alphaBytes ∧ t < 256 ∧ a < 65536 := by
  delta legalParts
  simp only [Finset.mem_union, Finset.mem_product, Finset.mem_singleton, Finset.mem_range]

theorem legalParts_card : legalParts.card = 9 * 256 + 2 * (256 * 65536) := by
  have hbytes : Disjoint fixedBytes alphaBytes := by decide
  delta legalParts
  rw [Finset.card_union_of_disjoint (Finset.disjoint_product.mpr (.inl hbytes)), Finset.card_product,
    Finset.card_product, Finset.card_product, Finset.card_product, Finset.card_range, Finset.card_range,
    Finset.card_singleton, mul_one, show fixedBytes.card = 9 from rfl, show alphaBytes.card = 2 from rfl]

/-- A word cut into low byte, `txs` byte and upper half. -/
def wordParts (c : Word) : Nat × Nat × Nat := (c.toNat % 256, c.toNat / 256 % 256, c.toNat / 65536)

theorem wordParts_injective : Function.Injective wordParts := by
  intro c d h
  simp only [wordParts, Prod.mk.injEq] at h
  rw [← BitVec.toNat_inj]
  omega

theorem decode_isSome_iff (c : Word) : (decode c).toOption.isSome = true ↔ ∃ r ∈ opRows, r.covers c = true := by
  have hnone : (∃ e, decode c = .error e) ↔ ¬ ∃ r ∈ opRows, r.covers c = true := by
    simp only [decode_error_iff, not_exists, not_and, Bool.not_eq_true]
  rw [← not_iff_not, ← hnone]
  cases decode c <;> simp [Except.toOption]

theorem wordParts_mem_iff (c : Word) : wordParts c ∈ legalParts ↔ (decode c).toOption.isSome = true := by
  have hc := c.isLt
  rw [decode_isSome_iff, covered_iff, wordParts, mem_legalParts]
  simp only [fixedBytes, alphaBytes, Finset.mem_insert, Finset.mem_singleton]
  omega

/-- Every legal triple of parts is put together to a word. -/
theorem exists_wordParts {p : Nat × Nat × Nat} (hp : p ∈ legalParts) : ∃ c, wordParts c = p := by
  obtain ⟨b, t, a⟩ := p
  simp only [mem_legalParts, fixedBytes, alphaBytes, Finset.mem_insert, Finset.mem_singleton] at hp
  refine ⟨BitVec.ofNat 32 (b + 256 * t + 65536 * a), ?_⟩
  simp only [wordParts, BitVec.toNat_ofNat, Prod.mk.injEq]
  omega

theorem image_wordParts :
    (Finset.univ.filter fun c : Word => (decode c).toOption.isSome = true).image wordParts = legalParts := by
  ext p
  simp only [Finset.mem_image, Finset.mem_filter, Finset.mem_univ, true_and, ← wordParts_mem_iff]
  constructor
  · rintro ⟨c, hc, rfl⟩
    exact hc
  · intro hp
    obtain ⟨c, rfl⟩ := exists_wordParts hp
    exact ⟨c, hp, rfl⟩

/-- Settles O5: a word is determined by its parts, so there are as many legal words as legal parts. -/
theorem legalWordCount : Obligations.LegalWordCount := by
  rw [Obligations.LegalWordCount, ← Finset.card_image_of_injective _ wordParts_injective, image_wordParts,
    legalParts_card]

/-! ### The words of the test vectors -/

/-- Settles O6: each listed word is the encoding of the well-formed command beside it. -/
theorem listedWordsDecode : Obligations.ListedWordsDecode := by
  have spells {c : Word} (i : Instr) (hwf : i.wf = true) (he : encode i = c) : decode c = .ok i :=
    he ▸ decodeOfEncode i hwf
  exact ⟨spells _ (by decide) (by decide), spells _ (by decide) (by decide), spells _ (by decide) (by decide),
    spells _ (by decide) (by decide), spells _ (by decide) (by decide), spells _ (by decide) (by decide),
    spells _ (by decide) (by decide), spells _ (by decide) (by decide), spells _ (by decide) (by decide),
    spells _ (by decide) (by decide)⟩

end Sys2Proof.Machine

/-! Steps (70_reset_and_hazards.md R170, R177): the invariant, the fault record and the queue of host actions along a
step, what a step with a command word does, and the host's accesses. -/

namespace Sys2Proof.Machine

/-! ### The invariant -/

/-- The invariant looks only at `STATUS`, `FINFO`, `BD` and the memory. -/
theorem State.Inv.of_eq {s t : State} (hs : s.Inv) (hstatus : t.status = s.status) (hfinfo : t.finfo = s.finfo)
    (hbd : t.bd = s.bd) (hmem : t.mem = s.mem) : t.Inv where
  faultRecord := by rw [State.FaultRecordOk, hstatus, hfinfo]; exact hs.faultRecord
  depth := hbd ▸ hs.depth
  memory := hmem ▸ hs.memory

theorem State.Inv.answer {s : State} (hs : s.Inv) (v : Word) : (s.answer v).Inv :=
  hs.of_eq (answer_status s v) (answer_finfo s v) (answer_bd s v) (answer_mem s v)

theorem State.Inv.withMem {s : State} (hs : s.Inv) {m : Memory} (hm : m.wf = true) : { s with mem := m }.Inv where
  faultRecord := hs.faultRecord
  depth := hs.depth
  memory := hm

/-- Power-up with a canonical memory meets the invariant (10_state.md R38). -/
theorem powerUp_inv {m : Memory} (u : List AddrRange) (hm : m.wf = true) : (State.powerUp m u).Inv where
  faultRecord := .inl ⟨powerUp_status m u, powerUp_finfo m u⟩
  depth := by rw [powerUp_bd]; decide
  memory := hm

theorem State.Inv.applyReset {s : State} (hs : s.Inv) : s.applyReset.Inv :=
  (powerUp_inv s.unmapped hs.memory).of_eq rfl rfl rfl rfl

theorem State.Inv.takeFault {s : State} (hs : s.Inv) {c : Cause} {v : Word} (hr : (takeFault s c v).FaultRecordOk) :
    (takeFault s c v).Inv where
  faultRecord := hr
  depth := hs.depth
  memory := hs.memory

/-- A command stores into a canonical memory, or records a position inside a block of at most 32 by 32. -/
theorem exec_inv {i : Instr} {s t : State} (hs : s.Inv) (h : exec i s = .next t) : t.Inv := by
  obtain rfl | ⟨w, h', x, val, -, -, -, -, rfl⟩ | ⟨w, h', r, c, -, hk, hr, hc, rfl⟩ := exec_next_cases h
  · exact hs
  · exact hs.withMem (Access.storeAll_wf hs.memory)
  · obtain ⟨-, hw, -, hh⟩ := resolve_le hk
    exact hs.takeFault (.inr (.inl ⟨rfl, r, c, by omega, by omega, mismatchInfo_eq (by omega)⟩))

theorem executeWord_inv {c : Word} {s t : State} (hs : s.Inv) (h : executeWord c s = .next t) : t.Inv := by
  obtain ⟨-, he⟩ | ⟨-, i, -, he⟩ | ⟨-, e, hd, he⟩ := executeWord_cases c s
  · cases he.symm.trans h
    exact hs
  · exact exec_inv hs (he ▸ h)
  · cases he.symm.trans h
    exact hs.takeFault (.inr (.inr ⟨rfl, e, hd⟩))

theorem toNat_stored_depth (v : Word) : (BitVec.ofNat 32 (slice v (Config.bdBits - 1) 0)).toNat = v.toNat % 256 := by
  rw [ofNat_slice_depth]
  exact and_maskAlpha v

/-- Of the registers the host writes only `BD` is in the invariant, and the port stores its low byte (10_state.md
R32). -/
theorem writeReg_inv {r : Reg} {v : Word} {s t : State} (hcmd : r ≠ .cmd) (hs : s.Inv)
    (h : writeReg r v s = .next t) : t.Inv := by
  cases r with
  | cmd => exact absurd rfl hcmd
  | bd =>
    cases h
    have hlt : v.toNat % 256 < 256 := Nat.mod_lt _ (by decide)
    exact ⟨hs.faultRecord, (toNat_stored_depth v).trans_lt hlt, hs.memory⟩
  | _ => cases h; exact hs.of_eq rfl rfl rfl rfl

theorem act_inv {a : HostAction} {s t : State} (hs : s.Inv) (h : act a s = .next t) : t.Inv := by
  obtain ⟨c, -, hc⟩ | ⟨r, v, hcmd, -, hw⟩ | ⟨_, _, _, -, rfl⟩ | ⟨_, _, v, -, rfl⟩ | ⟨b, v, -, -, rfl⟩ |
    ⟨b, -, -, rfl⟩ | ⟨-, rfl⟩ := act_cases h
  · exact executeWord_inv hs hc
  · exact writeReg_inv hcmd hs hw
  · exact hs
  · exact hs.answer v
  · exact hs.withMem (Memory.wf_setByte _ v hs.memory)
  · exact hs.answer _
  · exact hs.applyReset

/-- Everything a step that answers a next state can have done: nothing, with no action waiting; or the next action. -/
theorem step_cases {s t : State} (h : step s = .next t) :
    s.pending = [] ∧ t = s ∨ ∃ a rest, s.pending = a :: rest ∧ act a { s with pending := rest } = .next t := by
  cases hp : s.pending with
  | nil =>
    cases (step_nil hp).symm.trans h
    exact .inl ⟨rfl, rfl⟩
  | cons a rest => exact .inr ⟨a, rest, rfl, step_cons hp ▸ h⟩

/-- Settles O52: the queue is not in the invariant, and every host action keeps it. -/
theorem everyStepKeepsTheInvariant : Obligations.EveryStepKeepsTheInvariant := by
  intro s t hs h
  obtain ⟨-, rfl⟩ | ⟨a, rest, -, ha⟩ := step_cases h
  · exact hs
  · exact act_inv (s := { s with pending := rest }) (hs.of_eq rfl rfl rfl rfl) ha

/-- Settles O53: power-up with the empty memory, which is canonical, is reset. -/
theorem resetMeetsTheInvariant : Obligations.ResetMeetsTheInvariant :=
  ⟨powerUp_inv [] rfl, fun _ u hm => powerUp_inv u hm⟩

/-! ### The fault record -/

/-- Settles O16: the record is no part of the queue, and of the actions on a halted block only reset changes it. -/
theorem onlyResetClearsTheFaultRecord : Obligations.OnlyResetClearsTheFaultRecord := by
  intro s t hs h
  obtain ⟨-, rfl⟩ | ⟨a, rest, hp, ha⟩ := step_cases h
  · exact .inl ⟨rfl, rfl⟩
  · by_cases hreset : a = .reset
    · exact .inr ⟨rest, hreset ▸ hp⟩
    · exact .inl (act_halted_keeps_record (s := { s with pending := rest }) hs hreset ha)

/-! ### Runs -/

theorem writeReg_pending {r : Reg} {v : Word} {s t : State} (hcmd : r ≠ .cmd) (h : writeReg r v s = .next t) :
    t.pending = s.pending := by
  cases r with
  | cmd => exact absurd rfl hcmd
  | _ => cases h; rfl

theorem executeWord_pending {c : Word} {s t : State} (h : executeWord c s = .next t) : t.pending = s.pending := by
  obtain ⟨-, he⟩ | ⟨-, i, -, he⟩ | ⟨-, e, -, he⟩ := executeWord_cases c s
  · cases he.symm.trans h
    rfl
  · obtain rfl | ⟨_, _, _, _, -, -, -, -, rfl⟩ | ⟨_, _, _, _, -, -, -, -, rfl⟩ := exec_next_cases (he ▸ h)
    · rfl
    · rfl
    · exact takeFault_pending _ _ _
  · cases he.symm.trans h
    exact takeFault_pending _ _ _

/-- No action reads or changes the queue of the actions after it (assumption log 1). -/
theorem act_pending {a : HostAction} {s t : State} (h : act a s = .next t) : t.pending = s.pending := by
  obtain ⟨c, -, hc⟩ | ⟨r, v, hcmd, -, hw⟩ | ⟨_, _, _, -, rfl⟩ | ⟨_, _, v, -, rfl⟩ | ⟨b, v, -, -, rfl⟩ |
    ⟨b, -, -, rfl⟩ | ⟨-, rfl⟩ := act_cases h
  · exact executeWord_pending hc
  · exact writeReg_pending hcmd hw
  · rfl
  · exact answer_pending s v
  · rfl
  · exact answer_pending s _
  · exact applyReset_pending s

theorem run_of_next {s t : State} (h : step s = .next t) (k : Nat) :
    Host.Core.run core (k + 1) s = Host.Core.run core k t := by
  have hstep : core.step s = .next t := h
  simp only [Host.Core.run, hstep]

theorem run_of_refused {s : State} {r : Refusal} (h : step s = .refused r) (k : Nat) :
    Host.Core.run core (k + 1) s = .refused r := by
  have hstep : core.step s = .refused r := h
  simp only [Host.Core.run, hstep]

/-- A run from a halted state over a queue without a reset stays halted or is refused. -/
theorem verdict_run_halted {actions : List HostAction} {s : State} (hp : s.pending = actions) (hs : s.halted = true)
    (hreset : HostAction.reset ∉ actions) : verdict (Host.Core.run core actions.length s) ≠ .good := by
  induction actions generalizing s with
  | nil =>
    have hfailed : verdict (Host.Core.run core 0 s) = .failed := verdict_halted hs
    exact fun hgood => by cases hfailed.symm.trans hgood
  | cons a rest ih =>
    obtain ⟨hne, hrest⟩ := not_or.mp (List.mem_cons.not.mp hreset)
    rw [List.length_cons]
    have hstep := step_cons hp
    cases ha : act a { s with pending := rest } with
    | next t =>
      have hstatus : t.status = s.status :=
        (act_halted_keeps_record (s := { s with pending := rest }) hs (Ne.symm hne) ha).1
      rw [run_of_next (hstep.trans ha)]
      exact ih (act_pending ha) ((halted_of_status hstatus).trans hs) hrest
    | fault r => exact Fault.elim_any r
    | refused r =>
      rw [run_of_refused (hstep.trans ha)]
      exact fun hgood => by cases hgood

/-- Settles O18, by induction on the list of actions. -/
theorem haltedRunsAreNeverGood : Obligations.HaltedRunsAreNeverGood :=
  fun actions s hs hreset => verdict_run_halted (s := { s with pending := actions }) rfl hs hreset

/-! ### One step -/

/-- Settles O7: the step performs the write to `CMD`, which takes the fault. -/
theorem illegalWordHaltsTheBlock : Obligations.IllegalWordHaltsTheBlock := by
  intro s c rest hp hs ⟨e, he⟩
  rw [step_cons hp, act_command, executeWord_of_error (s := { s with pending := rest }) he hs,
    takeFault_illegalCommand]

/-- Settles O8: the step performs the write to `CMD`, which runs the command. -/
theorem stepRunsTheDecodedCommand : Obligations.StepRunsTheDecodedCommand := by
  intro s c rest i hp hd _
  rw [step_cons hp, act_command, executeWord_of_decode hd]

/-- Settles O9. -/
theorem idleStepChangesNothing : Obligations.IdleStepChangesNothing := fun _ hp => step_nil hp

/-! ### The host's accesses -/

theorem wrapAddr_toNat (a : Word) : wrapAddr a.toNat = a.toNat := wrapAddr_of_lt a.isLt

/-- Settles O10: the byte written reads back, and two addresses of the space are different bytes. -/
theorem hostReadsAndWritesMemory : Obligations.HostReadsAndWritesMemory := by
  intro s a rest hm
  refine ⟨fun v hp => ?write, fun hp => ?read⟩
  case write =>
    refine ⟨_, (step_cons hp).trans (act_memWrite_mapped (s := { s with pending := rest }) hm v), rfl,
      Memory.byte_setByte_same s.mem a.toNat v, fun b hb hne => Memory.byte_setByte_other s.mem v ?_⟩
    rwa [wrapAddr_of_lt hb, wrapAddr_toNat]
  case read => exact (step_cons hp).trans (act_memRead_mapped (s := { s with pending := rest }) hm)

/-- Settles O11: each access is a write or a read of its register, and `BD` keeps the low byte of what is written. -/
theorem registerPortReadsAndWrites : Obligations.RegisterPortReadsAndWrites := by
  intro s v
  exact ⟨act_wr .srcBase v s, act_wr .srcStride v s, act_wr .dstBase v s, act_wr .dstStride v s, act_wr .q3Base v s,
    ⟨_, act_wr .bd v s, rfl, toNat_stored_depth v⟩, act_wr .status v s, act_wr .finfo v s,
    act_rd .cmd s, act_rd .status s, act_rd .finfo s, act_rd .bd s, act_rd .srcBase s, act_rd .srcStride s,
    act_rd .dstBase s, act_rd .dstStride s, act_rd .q3Base s⟩

theorem Reg.offset_le (r : Reg) : r.offset ≤ 0x20 := by cases r <;> decide

theorem Reg.at?_above {offset : Nat} (h : 0x20 < offset) : Reg.at? offset = none := by
  cases hr : Reg.at? offset with
  | none => rfl
  | some r =>
    have := r.offset_le
    have := Reg.at?_some hr
    omega

theorem portShapeOk_iff {bits offset : Nat} : portShapeOk bits offset = true ↔ bits = 32 ∧ offset % 4 = 0 := by
  rw [portShapeOk, Bool.and_eq_true, decide_eq_true_eq, decide_eq_true_eq, Config.regBits]

/-- Settles O12: the map's last register is at 0x20, so the access finds none. -/
theorem offsetsOutsideTheMapReadZero : Obligations.OffsetsOutsideTheMapReadZero := by
  intro s offset v halign habove
  have hshape : portShapeOk 32 offset = true := portShapeOk_iff.mpr ⟨rfl, halign⟩
  constructor
  · rw [act, if_pos hshape, Reg.at?_above habove]
    rfl
  · rw [act, if_pos hshape, Reg.at?_above habove]

/-- Settles O13: the shape is looked at before the offset's register is. -/
theorem misshapenPortAccessIsRefused : Obligations.MisshapenPortAccessIsRefused := by
  intro s bits offset v hbad
  have hshape : ¬ portShapeOk bits offset = true := fun hok => by
    have := portShapeOk_iff.mp hok
    omega
  exact ⟨by rw [act, if_neg hshape], by rw [act, if_neg hshape]⟩

end Sys2Proof.Machine

/-! Memory (20_memory.md R52, R53, R59, 40_dc_remover.md R92): the bytes of an element, the bytes of a stored block in
any order, storing what is already there, and plane addresses. -/

namespace Sys2Proof.Machine

/-! ### Elements -/

theorem sext16_nat {u : Nat} (hu : u < 65536) : sext 16 u = if u < 32768 then (u : Int) else (u : Int) - 65536 := by
  unfold sext
  norm_num
  split <;> split <;> omega

/-- The low `n` bits of a value, by the natural number they make (00_scope.md R7). -/
theorem zext_eq_of_cast {n u : Nat} {v : Int} (h : (u : Int) = v % 2 ^ n) : zext n v = u := by
  zify
  rw [zext_cast, h]

/-- The two bytes a 2-byte store writes. -/
theorem Memory.bytes_store_two (m : Memory) (a v : Nat) :
    ((m.store .two a v).byte a).toNat = v % 256 ∧ ((m.store .two a v).byte (a + 1)).toNat = v / 256 % 256 := by
  refine ⟨?_, ?_⟩
  · rw [Memory.store, Memory.byte_setByte_other _ _ (wrapAddr_succ_ne a).symm, Memory.byte_setByte_same, ofNat8_toNat]
  · rw [Memory.store, Memory.byte_setByte_same, ofNat8_toNat]

/-- Settles O49: `sext16_nat` for `Load16s`, `byte_store_other` for the bytes a store leaves, `zext_eq_of_cast` for the
value it stores. -/
theorem elementsAreLittleEndian : Obligations.ElementsAreLittleEndian := by
  intro m a v z
  obtain ⟨hlow, hhigh⟩ := Memory.bytes_store_two m a v
  refine ⟨rfl, rfl, (Memory.byte_wrapAddr m a).symm, sext16_nat (Memory.load_lt m .two a), ?one, hlow, hhigh,
    fun b hb => Memory.byte_store_other m v ?_, fun b hb hb' => Memory.byte_store_other m v ?_,
    fun u hu => congrArg (m.store .one a) (zext_eq_of_cast hu),
    fun u hu => congrArg (m.store .two a) (zext_eq_of_cast hu)⟩
  case one => rw [Memory.store, Memory.byte_setByte_same, ofNat8_toNat]
  · intro k hk
    obtain rfl : k = 0 := Nat.lt_one_iff.mp hk
    exact hb
  · intro k hk
    obtain rfl | rfl : k = 0 ∨ k = 1 := Nat.le_one_iff_eq_zero_or_eq_one.mp (Nat.le_of_lt_succ hk)
    · exact hb
    · exact hb'

/-- An element's bytes, read off its little-endian value (20_memory.md R51). -/
theorem Memory.byte_eq_of_load (m : Memory) (es : ElemSize) (a k : Nat) (hk : k < es.bytes) :
    m.byte (a + k) = BitVec.ofNat 8 (m.load es a / 256 ^ k) := by
  have hlow := (m.byte a).isLt
  have hhigh := (m.byte (a + 1)).isLt
  rw [← BitVec.toNat_inj, ofNat8_toNat]
  cases es with
  | one =>
    obtain rfl : k = 0 := Nat.lt_one_iff.mp hk
    rw [Memory.load_one, pow_zero, Nat.div_one, Nat.add_zero]
    omega
  | two =>
    rw [Memory.load_two]
    obtain rfl | rfl : k = 0 ∨ k = 1 := Nat.le_one_iff_eq_zero_or_eq_one.mp (Nat.le_of_lt_succ hk)
    · rw [pow_zero, Nat.div_one, Nat.add_zero]
      omega
    · rw [pow_one]
      omega

/-! ### Storing at a list of positions -/

/-- The bytes of a stored element depend on the stored value alone, not on the order of the list. -/
theorem byte_storeAt_mem {p : Plane} {val : Nat → Nat → Int} {ps : List (Nat × Nat)} {m : Memory} {x : Nat × Nat}
    {k : Nat} (hx : x ∈ ps) (hsep : ∀ q ∈ ps, q ≠ x → p.Sep x q) (hk : k < p.size.bytes) :
    (storeAt p val ps m).byte (p.addr x.1 x.2 + k) =
      BitVec.ofNat 8 (zext (8 * p.size.bytes) (val x.1 x.2) / 256 ^ k) := by
  rw [Memory.byte_eq_of_load _ p.size _ k hk, load_storeAt_mem hx hsep]

/-- A byte of no element of a list, or a byte of one of them. -/
theorem Plane.byte_cases (p : Plane) (ps : List (Nat × Nat)) (b : Nat) :
    (∀ q ∈ ps, ∀ k < p.size.bytes, wrapAddr b ≠ wrapAddr (p.addr q.1 q.2 + k)) ∨
    ∃ q ∈ ps, ∃ k < p.size.bytes, wrapAddr b = wrapAddr (p.addr q.1 q.2 + k) := by
  by_cases h : ∃ q ∈ ps, ∃ k < p.size.bytes, wrapAddr b = wrapAddr (p.addr q.1 q.2 + k)
  · exact .inr h
  · push Not at h
    exact .inl h

/-- Settles O28: in either order a byte of an element is that of the value stored there, any other byte is the old one,
and canonical memories with the same bytes are equal. -/
theorem storeOrderDoesNotMatter : Obligations.StoreOrderDoesNotMatter := by
  intro x val m ps hu hm hperm
  refine Memory.ext_byte (storeAt_wf hm) (Access.storeAll_wf hm) fun b => ?_
  rw [Access.storeAll]
  obtain hout | ⟨q, hq, k, hk, hb⟩ := x.plane.byte_cases (positions x.w x.h) b
  · rw [byte_storeAt_other hout, byte_storeAt_other fun q hq => hout q (hperm.mem_iff.mp hq)]
  · have hsep : ∀ y ∈ positions x.w x.h, y ≠ q → x.plane.Sep q y := fun y hy hne => hu.sep hq hy hne
    rw [Memory.byte_congr _ hb, Memory.byte_congr _ hb, byte_storeAt_mem hq hsep hk,
      byte_storeAt_mem (hperm.mem_iff.mpr hq) (fun y hy => hsep y (hperm.mem_iff.mp hy)) hk]

/-- Storing into an element the value it holds changes no byte. -/
theorem Memory.byte_storeValue_own {m : Memory} {es : ElemSize} {a : Nat} {v : Int}
    (h : zext (8 * es.bytes) v = m.load es a) (b : Nat) : (m.storeValue es a v).byte b = m.byte b := by
  by_cases hin : ∃ k < es.bytes, wrapAddr b = wrapAddr (a + k)
  · obtain ⟨k, hk, hb⟩ := hin
    rw [Memory.byte_congr _ hb, Memory.byte_congr m hb, Memory.byte_eq_of_load _ es a k hk,
      Memory.load_storeValue_same, h, ← Memory.byte_eq_of_load m es a k hk]
  · push Not at hin
    exact Memory.byte_storeValue_other m v hin

/-- Storing into every element of a list the value it holds changes no byte, even where the elements overlap. -/
theorem byte_storeAt_own {p : Plane} {val : Nat → Nat → Int} {ps : List (Nat × Nat)} {m : Memory}
    (h : ∀ q ∈ ps, zext (8 * p.size.bytes) (val q.1 q.2) = p.get m q.1 q.2) (b : Nat) :
    (storeAt p val ps m).byte b = m.byte b := by
  induction ps generalizing m with
  | nil => rfl
  | cons q ps ih =>
    have hsame : ∀ c, (m.storeValue p.size (p.addr q.1 q.2) (val q.1 q.2)).byte c = m.byte c :=
      Memory.byte_storeValue_own (h q List.mem_cons_self)
    rw [storeAt_cons, ih, hsame]
    intro y hy
    rw [h y (List.mem_cons_of_mem q hy)]
    exact Memory.load_congr fun k _ => (hsame _).symm

/-! ### Blocks -/

theorem Access.byte_storeAll_own {x : Access} {val : Nat → Nat → Int} {m : Memory}
    (h : InBlock x.w x.h fun r c => zext (8 * x.plane.size.bytes) (val r c) = x.plane.get m r c) (b : Nat) :
    (x.storeAll val m).byte b = m.byte b :=
  byte_storeAt_own (inBlock_iff.mp h) b

/-- What a stored block holds, byte by byte. -/
theorem Access.byte_storeAll_mem {x : Access} {val : Nat → Nat → Int} {m : Memory} (hu : x.Unfolded) {r c k : Nat}
    (hr : r < x.h) (hc : c < x.w) (hk : k < x.plane.size.bytes) : (x.storeAll val m).byte (x.plane.addr r c + k) =
      BitVec.ofNat 8 (zext (8 * x.plane.size.bytes) (val r c) / 256 ^ k) :=
  byte_storeAt_mem (x := (r, c)) (mem_positions.mpr ⟨hr, hc⟩)
    (fun _ hq hne => hu.sep (mem_positions.mpr ⟨hr, hc⟩) hq hne) hk

/-- Storing a block is all that a writing command does (20_memory.md R68). -/
theorem onlyWrites_storeAll (s : State) (x : Access) (val : Nat → Nat → Int) :
    OnlyWrites s { s with mem := x.storeAll val s.mem } x :=
  ⟨rfl, fun _ ha ht => Access.byte_storeAll_other ha ht⟩

/-- Settles O46: `State.q3_unfolded` at a supported size. -/
theorem theQ3BufferNeverFolds : Obligations.TheQ3BufferNeverFolds := by
  intro s txs w h hk
  obtain ⟨-, hw, -, hh⟩ := resolve_le hk
  exact s.q3_unfolded hw hh

/-- Settles O50: a stride of `2^32 - k` adds `2^32` times the row, which the address leaves out. -/
theorem planeAddressing : Obligations.PlaneAddressing := by
  intro p r c
  refine ⟨rfl, fun k hk => ?_⟩
  have hrow : ((r * p.stride.toNat : Nat) : Int) = 2 ^ 32 * r - (r * k : Int) := by
    have hstride : (p.stride.toNat : Int) = 2 ^ 32 - k := by omega
    rw [Nat.cast_mul, hstride]
    ring
  have haddr : (p.addr r c : Int) = (p.base.toNat + (2 ^ 32 * r - (r * k : Int) + c) * p.size.bytes) % 2 ^ 32 := by
    rw [← hrow]
    rfl
  have hsplit : (p.base.toNat + (2 ^ 32 * r - (r * k : Int) + c) * p.size.bytes : Int) =
      p.base.toNat + (-(r * k : Int) + c) * p.size.bytes + 2 ^ 32 * (r * p.size.bytes) := by ring
  rw [haddr, hsplit, Int.add_mul_emod_self_left]

end Sys2Proof.Machine

/-! The table of sizes (43_size_dispatch_mux.md R130), and the commands by family (00_scope.md R2): every command is one
of four kernels behind the dispatch stage, with the regions of that kernel. -/

namespace Sys2Proof.Machine

/-- Settles O19, by evaluating `resolve` at the 19 indices. -/
theorem resolveTable : Obligations.ResolveTable := by
  rw [Obligations.ResolveTable]
  decide

/-! ### The families -/

/-- A command is `SUBAVG`, a `SUBS`, a `PRED` or a `CMP`. -/
theorem family_cases (i : Instr) : (∃ txs, i = .subavg txs) ∨ (∃ f size, subsForm i = some (f, size)) ∨
    (∃ size, predSize i = some size) ∨ ∃ size, cmpSize i = some size := by
  cases i with
  | subavg txs => exact .inl ⟨txs, rfl⟩
  | predLbd | predHbd => exact .inr (.inr (.inl ⟨_, rfl⟩))
  | cmpE8 | cmpE16 => exact .inr (.inr (.inr ⟨_, rfl⟩))
  | _ => exact .inr (.inl ⟨_, _, rfl⟩)

/-- The range condition of a `SUBS`: only the high bit-depth forms have one (41_subsampler.md R107, R108). -/
def State.lumaCheck (s : State) (f : ChromaFormat) : ElemSize → Nat → Nat → Bool
  | .one, _, _ => true
  | .two, w, h => s.lumaInRange f w h

/-- The kernel of a `SUBS`, at either bit depth (41_subsampler.md R101 to R106). -/
def subsample (f : ChromaFormat) (size : ElemSize) (s : State) (w h : Nat) : Result :=
  runWriting s (s.q3 w h) [s.luma f size w h] ((s.q3 w h).meets (s.luma f size w h)) (s.lumaCheck f size w h)
    (subsampled f (s.lumaSample size))

/-- The clip bound of a `PRED`, at either bit depth (42_fixed_point_scaler.md R121). -/
def State.pixMax (s : State) : ElemSize → Int
  | .one => pixMaxLbd
  | .two => pixMaxHbd s.depth

theorem exec_of_subsForm {i : Instr} {f : ChromaFormat} {size : ElemSize} (hi : subsForm i = some (f, size))
    (s : State) : exec i s = runCommand s i.txs (subsample f size s) := by
  cases i with
  | subavg | predLbd | predHbd | cmpE8 | cmpE16 => cases hi
  | _ => cases hi; rfl

theorem exec_of_predSize {i : Instr} {size : ElemSize} (hi : predSize i = some size) (s : State) :
    exec i s = runCommand s i.txs (predict size (s.pixMax size) i.alpha s) := by
  cases i with
  | predLbd | predHbd => cases hi; rfl
  | _ => cases hi

/-! ### On a running block at a supported size -/

theorem exec_subavg_block {txs w h : Nat} {s : State} (hs : s.halted = false) (hk : resolve txs = .block w h) :
    exec (.subavg txs) s = subtractMean s w h (s.q3Avg w h) := by
  rw [exec_subavg, execSubavg, runCommand_block hs hk]

theorem exec_subs_block {i : Instr} {f : ChromaFormat} {size : ElemSize} {w h : Nat} {s : State}
    (hi : subsForm i = some (f, size)) (hs : s.halted = false) (hk : resolve i.txs = .block w h) :
    exec i s = subsample f size s w h := by
  rw [exec_of_subsForm hi, runCommand_block hs hk]

theorem exec_pred_block {i : Instr} {size : ElemSize} {w h : Nat} {s : State} (hi : predSize i = some size)
    (hs : s.halted = false) (hk : resolve i.txs = .block w h) :
    exec i s = predict size (s.pixMax size) i.alpha s w h := by
  rw [exec_of_predSize hi, runCommand_block hs hk]

theorem exec_cmp_block {i : Instr} {size : ElemSize} {w h : Nat} {s : State} (hi : cmpSize i = some size)
    (hs : s.halted = false) (hk : resolve i.txs = .block w h) : exec i s = compareTwins size s w h := by
  rw [exec_of_cmpSize hi, runCommand_block hs hk]

/-! ### The regions -/

theorem regions_subs {i : Instr} {f : ChromaFormat} {size : ElemSize} (hi : subsForm i = some (f, size)) (s : State)
    (w h : Nat) : commandWrites i s w h = some (s.q3 w h) ∧ commandReads i s w h = [s.luma f size w h] := by
  cases i with
  | subavg | predLbd | predHbd | cmpE8 | cmpE16 => cases hi
  | _ => cases hi; exact ⟨rfl, rfl⟩

theorem regions_pred {i : Instr} {size : ElemSize} (hi : predSize i = some size) (s : State) (w h : Nat) :
    commandWrites i s w h = some (s.dst size w h) ∧ commandReads i s w h = [s.q3 w h, s.dst size w h] := by
  cases i with
  | predLbd | predHbd => cases hi; exact ⟨rfl, rfl⟩
  | _ => cases hi

theorem regions_cmp {i : Instr} {size : ElemSize} (hi : cmpSize i = some size) (s : State) (w h : Nat) :
    commandWrites i s w h = none ∧ commandReads i s w h = [s.twinA size w h, s.twinB size w h] := by
  cases i with
  | cmpE8 | cmpE16 => cases hi; exact ⟨rfl, rfl⟩
  | _ => cases hi

/-! ### The premises -/

theorem commandReady_subs {i : Instr} {f : ChromaFormat} {size : ElemSize} (hi : subsForm i = some (f, size))
    (s : State) (w h : Nat) : CommandReady i s w h ↔ (s.Maps (s.q3 w h) ∧ s.Maps (s.luma f size w h)) ∧
      (s.q3 w h).Apart (s.luma f size w h) ∧ (size = .two → s.LumaOk f w h) := by
  cases i with
  | subavg | predLbd | predHbd | cmpE8 | cmpE16 => cases hi
  | _ => cases hi; simp [CommandReady, and_assoc]

theorem commandReady_pred {i : Instr} {size : ElemSize} (hi : predSize i = some size) (s : State) (w h : Nat) :
    CommandReady i s w h ↔ (s.Maps (s.dst size w h) ∧ s.Maps (s.q3 w h)) ∧
      (s.dst size w h).Apart (s.q3 w h) ∧ (s.dst size w h).Unfolded := by
  cases i with
  | predLbd | predHbd => cases hi; simp [CommandReady, and_assoc]
  | _ => cases hi

theorem commandReady_cmp {i : Instr} {size : ElemSize} (hi : cmpSize i = some size) (s : State) (w h : Nat) :
    CommandReady i s w h ↔ s.Maps (s.twinA size w h) ∧ s.Maps (s.twinB size w h) := by
  cases i with
  | cmpE8 | cmpE16 => cases hi; exact Iff.rfl
  | _ => cases hi

/-! ### The kernels -/

theorem State.lumaCheck_iff {s : State} {f : ChromaFormat} {size : ElemSize} {w h : Nat} :
    s.lumaCheck f size w h = true ↔ (size = .two → s.LumaOk f w h) := by
  cases size with
  | one => simp [State.lumaCheck]
  | two => simp [State.lumaCheck, State.lumaInRange_iff]

/-- A `SUBS` kernel: when it completes and what it stores. -/
theorem subsample_next_iff {f : ChromaFormat} {size : ElemSize} {w h : Nat} {s t : State} :
    subsample f size s w h = .next t ↔ (s.Maps (s.q3 w h) ∧ s.Maps (s.luma f size w h)) ∧
      (s.q3 w h).Apart (s.luma f size w h) ∧ (size = .two → s.LumaOk f w h) ∧
      t = { s with mem := (s.q3 w h).storeAll (subsampled f (s.lumaSample size)) s.mem } := by
  rw [subsample, runWriting_next_iff, Access.meets_eq_false, State.lumaCheck_iff, List.forall_mem_singleton]

theorem State.pixMax_range (s : State) (size : ElemSize) :
    0 ≤ s.pixMax size ∧ s.pixMax size < 2 ^ (8 * size.bytes) := by
  cases size with
  | one => exact (by decide : 0 ≤ pixMaxLbd ∧ pixMaxLbd < 2 ^ 8)
  | two =>
    obtain ⟨hlo, hhi⟩ := pixMaxHbd_range s.depth
    exact ⟨hlo, hhi.trans_lt (by decide)⟩

end Sys2Proof.Machine

/-! `SUBAVG` (40_dc_remover.md R90, R94): the samples it leaves, the bounds of the average, the sum that is left, and
why a second one changes nothing. -/

namespace Sys2Proof.Machine

/-! ### The samples -/

/-- The samples after `SUBAVG`: the differences it checked are the values it stores (40_dc_remover.md R90, R93). -/
theorem q3Sample_subavg {txs w h : Nat} {s t : State} (hs : s.halted = false) (hk : resolve txs = .block w h)
    (ht : exec (.subavg txs) s = .next t) :
    InBlock w h fun r c => t.q3Sample r c = s.q3Sample r c - meanOf w h s.q3Sample := by
  obtain ⟨-, hfit, rfl⟩ := (execSubavg_next_iff hs hk).mp ht
  obtain ⟨-, hw, -, hh⟩ := resolve_le hk
  intro r c hr hc
  obtain ⟨hlo, hhi⟩ := hfit r c hr hc
  exact q3Sample_storeAll (val := fun r c => s.q3Sample r c - meanOf w h s.q3Sample) hw hh hr hc hlo hhi

/-- Settles O23: over a mapped block with differences that fit, `SUBAVG` stores them. -/
theorem subavgSubtractsTheRoundedMean : Obligations.SubavgSubtractsTheRoundedMean := by
  intro txs w h s hs hk hm hfit
  have ht := (execSubavg_next_iff hs hk).mpr ⟨hm, hfit, rfl⟩
  exact ⟨_, ht, q3Sample_subavg hs hk ht, onlyWrites_storeAll s _ _⟩

/-! ### The average -/

theorem area_pos {txs w h : Nat} (hk : resolve txs = .block w h) : 0 < w * h := by
  obtain ⟨hw, -, hh, -⟩ := resolve_le hk
  exact Nat.mul_pos (by omega) (by omega)

/-- The number of samples is even, so the rounding offset is exactly half of it. -/
theorem area_half {txs w h : Nat} (hk : resolve txs = .block w h) : w * h = 2 * (w * h / 2) := by
  obtain ⟨n, hn, -, harea, -⟩ := resolve_area hk
  obtain ⟨k, rfl⟩ : ∃ k, n = k + 1 := ⟨n - 1, by omega⟩
  rw [harea, pow_succ]
  omega

theorem roundedMean_blockSum {txs w h : Nat} (hk : resolve txs = .block w h) (f : Nat → Nat → Int) :
    roundedMean (blockSum f w h) w h = meanOf w h f := by
  rw [roundedMean_eq hk, blockSum_eq_sumBlock, meanOf]

/-- Settles O25: the average is the mean, which both bounds of the samples bound. -/
theorem roundedMeanLiesBetweenMinAndMax : Obligations.RoundedMeanLiesBetweenMinAndMax := by
  intro txs w h f lo hi hk hf
  rw [roundedMean_blockSum hk]
  exact ⟨le_meanOf (area_pos hk) fun r c hr hc => (hf r c hr hc).1,
    meanOf_le (area_pos hk) fun r c hr hc => (hf r c hr hc).2⟩

/-! ### The residue -/

theorem sumBlock_congr {w h : Nat} {f g : Nat → Nat → Int} (hfg : InBlock w h fun r c => f r c = g r c) :
    sumBlock w h f = sumBlock w h g :=
  Finset.sum_congr rfl fun r hr => Finset.sum_congr rfl fun c hc =>
    hfg r c (Finset.mem_range.mp hr) (Finset.mem_range.mp hc)

theorem sumBlock_sub_const (w h : Nat) (f : Nat → Nat → Int) (v : Int) :
    sumBlock w h (fun r c => f r c - v) = sumBlock w h f - (w * h : Nat) * v := by
  rw [mul_comm, ← sumBlock_const w h v]
  simp only [sumBlock, Finset.sum_sub_distrib]

theorem sumBlock_subavg {txs w h : Nat} {s t : State} (hs : s.halted = false) (hk : resolve txs = .block w h)
    (ht : exec (.subavg txs) s = .next t) :
    sumBlock w h t.q3Sample = sumBlock w h s.q3Sample - (w * h : Nat) * meanOf w h s.q3Sample := by
  rw [sumBlock_congr (q3Sample_subavg hs hk ht), sumBlock_sub_const]

/-- Taking the mean off every sample leaves the remainder of the division that rounds it, less the offset
(40_dc_remover.md R94). -/
theorem sub_area_mul_meanOf (w h : Nat) (f : Nat → Nat → Int) : sumBlock w h f - (w * h : Nat) * meanOf w h f =
    (sumBlock w h f + (w * h / 2 : Nat)) % (w * h : Nat) - (w * h / 2 : Nat) := by
  rw [meanOf, Int.emod_def]
  ring

/-- Settles O26: the residue is a remainder, which lies between 0 and `N - 1`, less `N / 2`; as it differs from the old
sum by a multiple of `N` and is smaller than `N`, it is 0 exactly when `N` divides the old sum. -/
theorem subavgLeavesTheRoundingResidue : Obligations.SubavgLeavesTheRoundingResidue := by
  intro txs w h s t hs hk ht
  have hsum := sumBlock_subavg hs hk ht
  have hres := hsum.trans (sub_area_mul_meanOf w h s.q3Sample)
  have hpos : (0 : Int) < (w * h : Nat) := by exact_mod_cast area_pos hk
  have hhalf : ((w * h : Nat) : Int) = 2 * (w * h / 2 : Nat) := by exact_mod_cast area_half hk
  have hrem0 := Int.emod_nonneg (sumBlock w h s.q3Sample + (w * h / 2 : Nat)) hpos.ne'
  have hrem1 := Int.emod_lt_of_pos (sumBlock w h s.q3Sample + (w * h / 2 : Nat)) hpos
  have hlo : -((w * h / 2 : Nat) : Int) ≤ sumBlock w h t.q3Sample := by linarith
  have hhi : sumBlock w h t.q3Sample ≤ (w * h / 2 : Nat) - 1 := by linarith
  have hdvd : ((w * h : Nat) : Int) ∣ sumBlock w h s.q3Sample ↔ ((w * h : Nat) : Int) ∣ sumBlock w h t.q3Sample := by
    rw [hsum]
    exact (dvd_sub_left (dvd_mul_right _ _)).symm
  refine ⟨hsum, hres, hlo, hhi, fun h0 => hdvd.mpr (h0 ▸ dvd_zero _), fun hd => ?_⟩
  exact Int.eq_zero_of_abs_lt_dvd (hdvd.mp hd) (abs_lt.mpr ⟨by linarith, by linarith⟩)

/-! ### A second `SUBAVG` -/

/-- The remainder of a division by `N` is below `N`, so the mean of what `SUBAVG` leaves is 0 (40_dc_remover.md R90). -/
theorem meanOf_subavg {txs w h : Nat} {s t : State} (hs : s.halted = false) (hk : resolve txs = .block w h)
    (ht : exec (.subavg txs) s = .next t) : meanOf w h t.q3Sample = 0 := by
  have hpos : (0 : Int) < (w * h : Nat) := by exact_mod_cast area_pos hk
  have hres := (sumBlock_subavg hs hk ht).trans (sub_area_mul_meanOf w h s.q3Sample)
  rw [meanOf, hres, sub_add_cancel]
  exact Int.ediv_eq_zero_of_lt (Int.emod_nonneg _ hpos.ne') (Int.emod_lt_of_pos _ hpos)

/-- A Q3 sample is its element in two's complement (20_memory.md R52, R54). -/
theorem q3Sample_eq_sext (s : State) (r c : Nat) : s.q3Sample r c = sext 16 (s.q3Plane.get s.mem r c) := rfl

theorem zext16_q3Sample (s : State) (r c : Nat) : zext 16 (s.q3Sample r c) = s.q3Plane.get s.mem r c := by
  have hlt : s.q3Plane.get s.mem r c < 65536 := Memory.load_lt s.mem .two (s.q3Plane.addr r c)
  rw [q3Sample_eq_sext, zext16_sext16 hlt]

/-- Over a mapped block of mean 0 `SUBAVG` stores every sample as it is, so a canonical memory stays the same list. -/
theorem exec_subavg_of_mean_zero {txs w h : Nat} {s : State} (hs : s.halted = false) (hk : resolve txs = .block w h)
    (hm : s.Maps (s.q3 w h)) (hmean : meanOf w h s.q3Sample = 0) (hwf : s.mem.wf = true) :
    exec (.subavg txs) s = .next s := by
  have hfit : s.DifferencesFit w h := fun r c _ _ => by
    simp only [hmean, sub_zero]
    exact s.q3Sample_range r c
  have hmem : (s.q3 w h).storeAll (fun r c => s.q3Sample r c - meanOf w h s.q3Sample) s.mem = s.mem := by
    refine Memory.ext_byte (Access.storeAll_wf hwf) hwf fun b => Access.byte_storeAll_own (fun r c _ _ => ?_) b
    simp only [hmean, sub_zero]
    exact zext16_q3Sample s r c
  exact (execSubavg_next_iff hs hk).mpr ⟨hm, hfit, by rw [hmem]⟩

/-- Every command keeps the canonical form of the memory. -/
theorem exec_mem_wf {i : Instr} {s t : State} (hwf : s.mem.wf = true) (h : exec i s = .next t) : t.mem.wf = true := by
  obtain rfl | ⟨_, _, x, val, -, -, -, -, rfl⟩ | ⟨_, _, _, _, -, -, -, -, rfl⟩ := exec_next_cases h
  · exact hwf
  · exact Access.storeAll_wf (x := x) (val := val) hwf
  · exact hwf

/-- Settles O27: a `SUBAVG` that did nothing does nothing again; one that ran a kernel left a block of mean 0. -/
theorem subavgIsIdempotent : Obligations.SubavgIsIdempotent := by
  intro txs s t hwf ht
  obtain rfl | ⟨w, h, hs, hk, -⟩ := runCommand_next ht
  · exact ht
  · have hmean : meanOf w h t.q3Sample = 0 := meanOf_subavg hs hk ht
    have hcanon : t.mem.wf = true := exec_mem_wf hwf ht
    obtain ⟨hm, -, rfl⟩ := (execSubavg_next_iff hs hk).mp ht
    exact exec_subavg_of_mean_zero hs hk hm hmean hcanon

end Sys2Proof.Machine

/-! `SUBS` (41_subsampler.md): the luma region and the value of each format, what the six commands store, and when they
refuse. -/

namespace Sys2Proof.Machine

/-! ### The formats -/

theorem luma_f420 (s : State) (size : ElemSize) (w h : Nat) :
    s.luma .f420 size w h = ⟨s.srcPlane size, 2 * w, 2 * h⟩ := by
  simp only [State.luma, ChromaFormat.subX, ChromaFormat.subY, Nat.shiftLeft_eq, pow_one, mul_comm]

theorem luma_f422 (s : State) (size : ElemSize) (w h : Nat) : s.luma .f422 size w h = ⟨s.srcPlane size, 2 * w, h⟩ := by
  simp only [State.luma, ChromaFormat.subX, ChromaFormat.subY, Nat.shiftLeft_eq, pow_one, pow_zero, mul_one, mul_comm]

theorem luma_f444 (s : State) (size : ElemSize) (w h : Nat) : s.luma .f444 size w h = ⟨s.srcPlane size, w, h⟩ := rfl

theorem subsampled_f420 (L : Nat → Nat → Int) (r c : Nat) : subsampled .f420 L r c =
    2 * (L (2 * r) (2 * c) + L (2 * r) (2 * c + 1) + L (2 * r + 1) (2 * c) + L (2 * r + 1) (2 * c + 1)) := by
  rw [subsampled]
  ring

theorem subsampled_f422 (L : Nat → Nat → Int) (r c : Nat) :
    subsampled .f422 L r c = 4 * (L r (2 * c) + L r (2 * c + 1)) := by
  rw [subsampled]
  ring

theorem subsampled_f444 (L : Nat → Nat → Int) (r c : Nat) : subsampled .f444 L r c = 8 * L r c := by
  rw [subsampled]
  ring

/-- The samples in range are those of the luma region (41_subsampler.md R107). -/
theorem State.lumaOk_iff_of_luma {s : State} {f : ChromaFormat} {w h : Nat} {x : Access}
    (hx : s.luma f .two w h = x) : s.LumaOk f w h ↔ InBlock x.w x.h fun r c => s.lumaSample .two r c ≤ 4095 :=
  hx ▸ Iff.rfl

/-- An output depends only on the luma samples of the region (41_subsampler.md R100). -/
theorem subsampled_congr {f : ChromaFormat} {w h : Nat} {L M : Nat → Nat → Int}
    (hl : InBlock (w <<< f.subX) (h <<< f.subY) fun y x => L y x = M y x) :
    InBlock w h fun r c => subsampled f L r c = subsampled f M r c := by
  intro r c hr hc
  cases f with
  | f420 =>
    simp only [ChromaFormat.subX, ChromaFormat.subY, Nat.shiftLeft_eq, pow_one] at hl
    rw [subsampled_f420, subsampled_f420, hl (2 * r) (2 * c) (by omega) (by omega),
      hl (2 * r) (2 * c + 1) (by omega) (by omega), hl (2 * r + 1) (2 * c) (by omega) (by omega),
      hl (2 * r + 1) (2 * c + 1) (by omega) (by omega)]
  | f422 =>
    simp only [ChromaFormat.subX, ChromaFormat.subY, Nat.shiftLeft_eq, pow_one, pow_zero, mul_one] at hl
    rw [subsampled_f422, subsampled_f422, hl r (2 * c) hr (by omega), hl r (2 * c + 1) hr (by omega)]
  | f444 => rw [subsampled_f444, subsampled_f444, hl r c hr hc]

theorem subsampled_const (f : ChromaFormat) (v : Int) (r c : Nat) : subsampled f (fun _ _ => v) r c = 8 * v := by
  cases f with
  | f420 => rw [subsampled_f420]; ring
  | f422 => rw [subsampled_f422]; ring
  | f444 => rw [subsampled_f444]

/-! ### The stored samples -/

/-- The largest luma sample a `SUBS` completes on, at either bit depth (41_subsampler.md R107, R108). -/
def ElemSize.lumaMax : ElemSize → Int
  | .one => 255
  | .two => maxLumaHbd

theorem State.lumaSample_le_lumaMax {s : State} {f : ChromaFormat} {size : ElemSize} {w h : Nat}
    (hok : size = .two → s.LumaOk f w h) : InBlock (w <<< f.subX) (h <<< f.subY) fun y x =>
      0 ≤ s.lumaSample size y x ∧ s.lumaSample size y x ≤ size.lumaMax := by
  intro y x hy hx
  obtain ⟨hlo, hhi⟩ := s.lumaSample_range size y x
  cases size with
  | one => exact ⟨hlo, Int.le_of_lt_add_one hhi⟩
  | two => exact ⟨hlo, hok rfl y x hy hx⟩

theorem ElemSize.lumaMax_le (size : ElemSize) : 8 * size.lumaMax ≤ 32767 := by cases size <;> decide

section

variable {i : Instr} {f : ChromaFormat} {size : ElemSize} {w h : Nat} {s t : State}

/-- When a `SUBS` at a supported size completes on a running block, and what it stores. -/
theorem exec_subs_next_iff (hi : subsForm i = some (f, size)) (hs : s.halted = false)
    (hk : resolve i.txs = .block w h) : exec i s = .next t ↔ (s.Maps (s.q3 w h) ∧ s.Maps (s.luma f size w h)) ∧
      (s.q3 w h).Apart (s.luma f size w h) ∧ (size = .two → s.LumaOk f w h) ∧
      t = { s with mem := (s.q3 w h).storeAll (subsampled f (s.lumaSample size)) s.mem } := by
  rw [exec_subs_block hi hs hk, subsample_next_iff]

/-- The outputs lie in 0 to eight times the largest luma sample (41_subsampler.md R107). -/
theorem subsampled_luma_range (hok : size = .two → s.LumaOk f w h) : InBlock w h fun r c =>
    0 ≤ subsampled f (s.lumaSample size) r c ∧ subsampled f (s.lumaSample size) r c ≤ 8 * size.lumaMax :=
  subsampled_range (State.lumaSample_le_lumaMax hok)

/-- The Q3 samples after a `SUBS`: its outputs fit the elements they are stored in. -/
theorem q3Sample_subs (hi : subsForm i = some (f, size)) (hs : s.halted = false) (hk : resolve i.txs = .block w h)
    (ht : exec i s = .next t) : InBlock w h fun r c => t.q3Sample r c = subsampled f (s.lumaSample size) r c := by
  obtain ⟨-, -, hok, rfl⟩ := (exec_subs_next_iff hi hs hk).mp ht
  obtain ⟨-, hw, -, hh⟩ := resolve_le hk
  intro r c hr hc
  obtain ⟨hlo, hhi⟩ := subsampled_luma_range hok r c hr hc
  exact q3Sample_storeAll hw hh hr hc (by omega) (hhi.trans size.lumaMax_le)

/-- A `SUBS` with its regions mapped and apart and its samples in range completes and stores the format's values in the
Q3 block. -/
theorem exists_exec_subs {x : Access} {val : Nat → Nat → Int} (hx : s.luma f size w h = x)
    (hval : ∀ r c, subsampled f (s.lumaSample size) r c = val r c) (hi : subsForm i = some (f, size))
    (hs : s.halted = false) (hk : resolve i.txs = .block w h) (hm : s.Maps (s.q3 w h)) (hmx : s.Maps x)
    (hap : (s.q3 w h).Apart x) (hok : size = .two → s.LumaOk f w h) :
    ∃ t, exec i s = .next t ∧ (InBlock w h fun r c => t.q3Sample r c = val r c) ∧ OnlyWrites s t (s.q3 w h) := by
  subst hx
  have ht := (exec_subs_next_iff hi hs hk).mpr ⟨⟨hm, hmx⟩, hap, hok, rfl⟩
  exact ⟨_, ht, fun r c hr hc => (q3Sample_subs hi hs hk ht r c hr hc).trans (hval r c), onlyWrites_storeAll s _ _⟩

/-- A high bit-depth `SUBS` with its regions mapped and apart refuses a luma sample above 4095 (41_subsampler.md
R107). -/
theorem exec_subs_range {x : Access} (hx : s.luma f .two w h = x) (hi : subsForm i = some (f, .two))
    (hs : s.halted = false) (hk : resolve i.txs = .block w h) (hm : s.Maps (s.q3 w h)) (hmx : s.Maps x)
    (hap : (s.q3 w h).Apart x) (hbig : ∃ r c, r < x.h ∧ c < x.w ∧ 4095 < s.lumaSample .two r c) :
    exec i s = .refused .range := by
  have hok : ¬ s.lumaCheck f .two w h = true := by
    rw [State.lumaCheck_iff, State.lumaOk_iff_of_luma hx]
    obtain ⟨r, c, hr, hc, hlt⟩ := hbig
    exact fun hle => (hle rfl r c hr hc).not_gt hlt
  subst hx
  rw [exec_subs_block hi hs hk, subsample, runWriting_range_iff, Access.meets_eq_false]
  exact ⟨⟨hm, List.forall_mem_singleton.mpr hmx⟩, hap, hok⟩

end

/-! ### The six commands -/

/-- Settles O29: `exists_exec_subs` at 4:2:0 and one byte, which has no range condition. -/
theorem subs420LbdStoresDoubledSums : Obligations.Subs420LbdStoresDoubledSums := by
  intro txs w h s hs hk hm hmx hap
  exact exists_exec_subs (i := .subs420lbd txs) (luma_f420 s .one w h) (subsampled_f420 _) rfl hs hk hm hmx hap nofun

/-- Settles O30: `exists_exec_subs` at 4:2:2 and one byte. -/
theorem subs422LbdStoresQuadrupledPairs : Obligations.Subs422LbdStoresQuadrupledPairs := by
  intro txs w h s hs hk hm hmx hap
  exact exists_exec_subs (i := .subs422lbd txs) (luma_f422 s .one w h) (subsampled_f422 _) rfl hs hk hm hmx hap nofun

/-- Settles O31: `exists_exec_subs` at 4:4:4 and one byte. -/
theorem subs444LbdStoresEightfoldSamples : Obligations.Subs444LbdStoresEightfoldSamples := by
  intro txs w h s hs hk hm hmx hap
  exact exists_exec_subs (i := .subs444lbd txs) (luma_f444 s .one w h) (subsampled_f444 _) rfl hs hk hm hmx hap nofun

/-- Settles O32: `exists_exec_subs` at 4:2:0 and two bytes, the samples read being in range. -/
theorem subs420HbdStoresDoubledSums : Obligations.Subs420HbdStoresDoubledSums := by
  intro txs w h s hs hk hm hmx hap hle
  have hx := luma_f420 s .two w h
  exact exists_exec_subs (i := .subs420hbd txs) hx (subsampled_f420 _) rfl hs hk hm hmx hap
    fun _ => (State.lumaOk_iff_of_luma hx).mpr hle

/-- Settles O33: `exists_exec_subs` at 4:2:2 and two bytes. -/
theorem subs422HbdStoresQuadrupledPairs : Obligations.Subs422HbdStoresQuadrupledPairs := by
  intro txs w h s hs hk hm hmx hap hle
  have hx := luma_f422 s .two w h
  exact exists_exec_subs (i := .subs422hbd txs) hx (subsampled_f422 _) rfl hs hk hm hmx hap
    fun _ => (State.lumaOk_iff_of_luma hx).mpr hle

/-- Settles O34: `exists_exec_subs` at 4:4:4 and two bytes. -/
theorem subs444HbdStoresEightfoldSamples : Obligations.Subs444HbdStoresEightfoldSamples := by
  intro txs w h s hs hk hm hmx hap hle
  have hx := luma_f444 s .two w h
  exact exists_exec_subs (i := .subs444hbd txs) hx (subsampled_f444 _) rfl hs hk hm hmx hap
    fun _ => (State.lumaOk_iff_of_luma hx).mpr hle

/-- Settles O35: `exec_subs_range` at the three formats. -/
theorem subsHbdRefusesLargeSamples : Obligations.SubsHbdRefusesLargeSamples := by
  intro txs w h s hs hk hm
  exact ⟨exec_subs_range (i := .subs420hbd txs) (luma_f420 s .two w h) rfl hs hk hm,
    exec_subs_range (i := .subs422hbd txs) (luma_f422 s .two w h) rfl hs hk hm,
    exec_subs_range (i := .subs444hbd txs) (luma_f444 s .two w h) rfl hs hk hm⟩

/-- Settles O36: the shared byte makes the overlap check succeed, which is judged before the range. -/
theorem subsRefusesOverlap : Obligations.SubsRefusesOverlap := by
  intro i f size w h a s hi hs hk hm hmx hq hl
  have hmeet : (s.q3 w h).meets (s.luma f size w h) = true :=
    Bool.of_not_eq_false fun hfalse => Access.meets_eq_false.mp hfalse a hq hl
  rw [exec_subs_block hi hs hk, subsample, hmeet]
  exact runWriting_overlap ⟨hm, List.forall_mem_singleton.mpr hmx⟩

/-- Settles O37: over its region the plane cannot be told from a constant one, on which every format gives `8 * v`. -/
theorem subsScalesAConstantPlaneByEight : Obligations.SubsScalesAConstantPlaneByEight := by
  intro i f size w h s t hi hs hk ht
  have hout := q3Sample_subs hi hs hk ht
  refine ⟨fun v hv r c hr hc => ?const, fun hf r c hr hc => ?identity⟩
  case const =>
    have hconst : subsampled f (s.lumaSample size) r c = 8 * v :=
      (subsampled_congr hv r c hr hc).trans (subsampled_const f v r c)
    have height : 8 * (v : Int) = (v <<< 3 : Nat) := by
      rw [Nat.shiftLeft_eq]
      push_cast
      ring
    exact (hout r c hr hc).trans (hconst.trans height)
  case identity =>
    subst hf
    exact hout r c hr hc

/-- Settles O38: eight times the largest luma sample is 2040 at low and 32760 at high bit depth. -/
theorem subsOutputsStayInRange : Obligations.SubsOutputsStayInRange := by
  intro i f size w h s t hi hs hk ht r c hr hc
  obtain ⟨-, -, hok, -⟩ := (exec_subs_next_iff hi hs hk).mp ht
  rw [q3Sample_subs hi hs hk ht r c hr hc]
  have hmax : 8 * size.lumaMax = if size = .one then 2040 else 32760 := by cases size <;> rfl
  exact hmax ▸ subsampled_luma_range hok r c hr hc

end Sys2Proof.Machine

/-! `PRED` (42_fixed_point_scaler.md): the rounding and the clip bound, what the two commands store, when they refuse,
and what `alpha` 0 leaves. -/

namespace Sys2Proof.Machine

/-! ### The rounding -/

/-- The rounding works on the magnitude, so it is odd (42_fixed_point_scaler.md R120). -/
theorem roundSigned6_neg (q : Int) : roundSigned6 (-q) = -roundSigned6 q := by
  rw [roundSigned6_eq, roundSigned6_eq]
  split <;> split <;> omega

theorem roundSigned6_nearest (q : Int) : -32 ≤ 64 * roundSigned6 q - q ∧ 64 * roundSigned6 q - q ≤ 32 := by
  rw [roundSigned6_eq]
  split <;> omega

theorem roundSigned6_tie_nonneg {q : Int} (h0 : 0 ≤ q) (htie : q % 64 = 32) : 64 * roundSigned6 q = q + 32 := by
  rw [roundSigned6_eq, if_neg h0.not_gt]
  omega

/-- A negative tie is the mirror image of a positive one. -/
theorem roundSigned6_tie_nonpos {q : Int} (h0 : q ≤ 0) (htie : q % 64 = 32) : 64 * roundSigned6 q = q - 32 := by
  have hmirror : 64 * roundSigned6 (-q) = -q + 32 := roundSigned6_tie_nonneg (by omega) (by omega)
  rw [roundSigned6_neg] at hmirror
  omega

/-- Settles O39: odd, nearest, and the two ties. -/
theorem roundSigned6IsNearestTiesAway : Obligations.RoundSigned6IsNearestTiesAway := fun q =>
  ⟨roundSigned6_neg q, (roundSigned6_nearest q).1, (roundSigned6_nearest q).2, roundSigned6_tie_nonneg,
    roundSigned6_tie_nonpos⟩

theorem roundSigned6_zero : roundSigned6 0 = 0 := by decide

/-! ### The clip bound -/

theorem pixMaxHbd_ten : pixMaxHbd 10 = 1023 := rfl

theorem pixMaxHbd_twelve : pixMaxHbd 12 = 4095 := rfl

theorem pixMaxHbd_other {depth : Nat} (h10 : depth ≠ 10) (h12 : depth ≠ 12) : pixMaxHbd depth = 255 := by
  rw [pixMaxHbd, if_neg h10, if_neg h12]

/-- Settles O40: the three branches of the bound. -/
theorem pixMaxIsChosenByDepth : Obligations.PixMaxIsChosenByDepth := fun _ _ =>
  ⟨fun h => h ▸ pixMaxHbd_ten, fun h => h ▸ pixMaxHbd_twelve, pixMaxHbd_other⟩

theorem depth_eq (s : State) : s.depth = s.bd.toNat % 256 := by
  simp [State.depth, slice]

/-! ### The arithmetic -/

/-- The largest product is that of the two smallest factors (42_fixed_point_scaler.md R125). -/
theorem mul_le_of_int16 {a p : Int} (ha : -32768 ≤ a ∧ a ≤ 32767) (hp : -32768 ≤ p ∧ p ≤ 32767) :
    a * p ≤ 1073741824 := by
  have hleft : 0 ≤ (a + 32768) * (32768 - p) := mul_nonneg (by omega) (by omega)
  have hright : 0 ≤ (32768 - a) * (p + 32768) := mul_nonneg (by omega) (by omega)
  linarith

/-- The smallest product is that of the smallest and the largest factor (42_fixed_point_scaler.md R125). -/
theorem le_mul_of_int16 {a p : Int} (ha : -32768 ≤ a ∧ a ≤ 32767) (hp : -32768 ≤ p ∧ p ≤ 32767) :
    -1073709056 ≤ a * p := by
  have hlow : 0 ≤ (a + 32768) * (p + 32768) := mul_nonneg (by omega) (by omega)
  have hhigh : 0 ≤ (32767 - a) * (32767 - p) := mul_nonneg (by omega) (by omega)
  linarith

/-- Settles O45: the rounded value is within half of 1 of a 64th of the product. -/
theorem scalerArithmeticFits32Bits : Obligations.ScalerArithmeticFits32Bits := by
  intro alpha p d m ha0 ha1 hp0 hp1 hd0 hd1 hm
  have hlo := le_mul_of_int16 ⟨ha0, ha1⟩ ⟨hp0, hp1⟩
  have hhi := mul_le_of_int16 ⟨ha0, ha1⟩ ⟨hp0, hp1⟩
  obtain ⟨hnear0, hnear1⟩ := roundSigned6_nearest (alpha * p)
  obtain ⟨hpred0, hpred1⟩ := predicted_range hm alpha p d
  exact ⟨hlo, hhi, by omega, by omega, by omega, by omega, hpred0, hpred1⟩

/-- With `alpha` 0 a sample that is not negative is only clipped from above (42_fixed_point_scaler.md R124). -/
theorem predicted_alpha_zero {m d : Int} (p : Int) (hm : 0 ≤ m) (hd : 0 ≤ d) : predicted m 0 p d = min m d := by
  rw [predicted, zero_mul, roundSigned6_zero, add_zero, clip, max_eq_right (le_min hm hd)]

/-! ### The stored samples -/

/-- What a `PRED` stores at (r, c) (42_fixed_point_scaler.md R122, R123). -/
def State.prediction (s : State) (size : ElemSize) (alpha : Int) (r c : Nat) : Int :=
  predicted (s.pixMax size) alpha (s.q3Sample r c) (s.dstSample size r c)

section

variable {i : Instr} {size : ElemSize} {w h : Nat} {s t : State}

/-- When a `PRED` at a supported size completes on a running block, and what it stores. -/
theorem exec_pred_next_iff (hi : predSize i = some size) (hs : s.halted = false) (hk : resolve i.txs = .block w h) :
    exec i s = .next t ↔ (s.Maps (s.dst size w h) ∧ s.Maps (s.q3 w h)) ∧
      ((s.dst size w h).Apart (s.q3 w h) ∧ (s.dst size w h).Unfolded) ∧
      t = { s with mem := (s.dst size w h).storeAll (s.prediction size i.alpha) s.mem } := by
  rw [exec_pred_block hi hs hk, predict_next_iff]
  rfl

/-- The destination samples after a `PRED`: the clip makes them fit. -/
theorem dstSample_pred (hi : predSize i = some size) (hs : s.halted = false) (hk : resolve i.txs = .block w h)
    (ht : exec i s = .next t) : InBlock w h fun r c => t.dstSample size r c = s.prediction size i.alpha r c := by
  obtain ⟨-, ⟨-, hu⟩, rfl⟩ := (exec_pred_next_iff hi hs hk).mp ht
  obtain ⟨hmax0, hmax1⟩ := s.pixMax_range size
  intro r c hr hc
  obtain ⟨hlo, hhi⟩ := predicted_range hmax0 i.alpha (s.q3Sample r c) (s.dstSample size r c)
  exact dstSample_storeAll (val := s.prediction size i.alpha) hu hr hc hlo (hhi.trans_lt hmax1)

/-- Storing a block apart from the Q3 block leaves its samples (20_memory.md R58). -/
theorem q3Sample_storeAll_apart {x : Access} {val : Nat → Nat → Int} (hap : x.Apart (s.q3 w h)) :
    InBlock w h fun r c => { s with mem := x.storeAll val s.mem }.q3Sample r c = s.q3Sample r c := by
  intro r c hr hc
  have hget : s.q3Plane.get (x.storeAll val s.mem) r c = s.q3Plane.get s.mem r c :=
    Plane.get_storeAll_apart fun k hk ht => hap _ ht ⟨r, c, k, hr, hc, hk, rfl⟩
  have hleft : { s with mem := x.storeAll val s.mem }.q3Sample r c =
      sext 16 (s.q3Plane.get (x.storeAll val s.mem) r c) := rfl
  rw [hleft, hget, q3Sample_eq_sext]

/-- A `PRED` with its regions mapped and apart and its destination unfolded completes, stores the clipped sums and
leaves the Q3 samples. -/
theorem exists_exec_pred (hi : predSize i = some size) (hs : s.halted = false) (hk : resolve i.txs = .block w h)
    (hm : s.Maps (s.dst size w h)) (hmq : s.Maps (s.q3 w h)) (hap : (s.dst size w h).Apart (s.q3 w h))
    (hu : (s.dst size w h).Unfolded) : ∃ t, exec i s = .next t ∧
      (InBlock w h fun r c => t.dstSample size r c = s.prediction size i.alpha r c) ∧
      (InBlock w h fun r c => t.q3Sample r c = s.q3Sample r c) ∧ OnlyWrites s t (s.dst size w h) := by
  have ht := (exec_pred_next_iff hi hs hk).mpr ⟨⟨hm, hmq⟩, ⟨hap, hu⟩, rfl⟩
  exact ⟨_, ht, dstSample_pred hi hs hk ht, q3Sample_storeAll_apart hap, onlyWrites_storeAll s _ _⟩

end

/-- Settles O41: `exists_exec_pred` at one byte, whose bound is 255. -/
theorem predLbdAddsTheScaledSample : Obligations.PredLbdAddsTheScaledSample := by
  intro txs w h alpha s hs hk hm hmq hap hu
  exact exists_exec_pred (i := .predLbd txs alpha) rfl hs hk hm hmq hap hu

/-- Settles O42: the bound is that of `BD` modulo 256. -/
theorem predHbdAddsTheScaledSample : Obligations.PredHbdAddsTheScaledSample := by
  intro txs w h alpha s hs hk hm hmq hap hu
  rw [← depth_eq]
  exact exists_exec_pred (i := .predHbd txs alpha) rfl hs hk hm hmq hap hu

/-- Settles O43: either ground makes the overlap check of `predict` succeed. -/
theorem predRefusesOverlap : Obligations.PredRefusesOverlap := by
  intro i size w h s hi hs hk hm hmq hbad
  have hcheck : ((s.dst size w h).meets (s.q3 w h) || (s.dst size w h).folds) = true := by
    refine Bool.of_not_eq_false fun hfalse => ?_
    rw [Bool.or_eq_false_iff, Access.meets_eq_false, Access.folds_eq_false] at hfalse
    obtain ⟨hap, hu⟩ := hfalse
    exact hbad.elim (· hap) (· hu)
  rw [exec_pred_block hi hs hk, predict, hcheck]
  exact runWriting_overlap ⟨hm, List.forall_mem_singleton.mpr hmq⟩

/-! ### `alpha` 0 -/

theorem zext_natCast {n u : Nat} (hu : u < 2 ^ n) : zext n u = u := by
  zify
  exact zext_of_fits (Int.natCast_nonneg u) (by exact_mod_cast hu)

theorem prediction_alpha_zero (s : State) (size : ElemSize) (r c : Nat) :
    s.prediction size 0 r c = min (s.pixMax size) (s.dstSample size r c) :=
  predicted_alpha_zero (s.q3Sample r c) (s.pixMax_range size).1 (s.dstSample_range size r c).1

/-- The low bits of a destination sample are the sample. -/
theorem zext_dstSample (s : State) (size : ElemSize) (r c : Nat) :
    zext (8 * size.bytes) (s.dstSample size r c) = (s.dstPlane size).get s.mem r c :=
  zext_natCast (Memory.load_lt s.mem size _)

/-- A `PRED` with `alpha` 0 on destination samples within the bound stores every one as it is. -/
theorem pred_alpha_zero_keeps_bytes {i : Instr} {size : ElemSize} {w h : Nat} {s t : State}
    (hi : predSize i = some size) (hzero : i.alpha = 0) (hs : s.halted = false) (hk : resolve i.txs = .block w h)
    (ht : exec i s = .next t) (hle : InBlock w h fun r c => s.dstSample size r c ≤ s.pixMax size) (a : Nat) :
    t.mem.byte a = s.mem.byte a := by
  obtain ⟨-, -, rfl⟩ := (exec_pred_next_iff hi hs hk).mp ht
  have hown : InBlock w h fun r c =>
      zext (8 * size.bytes) (s.prediction size i.alpha r c) = (s.dstPlane size).get s.mem r c := fun r c hr hc => by
    simp only [hzero, prediction_alpha_zero, min_eq_right (hle r c hr hc), zext_dstSample]
  exact Access.byte_storeAll_own (x := s.dst size w h) hown a

/-- Settles O44: a 1-byte sample is always within its bound of 255. -/
theorem predAlphaZeroKeepsValidSamples : Obligations.PredAlphaZeroKeepsValidSamples := by
  intro txs w h s t hs hk
  refine ⟨fun ht => ?lbd, fun ht => ⟨fun r c hr hc => ?clipped, fun hle => ?hbd⟩⟩
  case lbd =>
    exact pred_alpha_zero_keeps_bytes (i := .predLbd txs 0) rfl rfl hs hk ht fun r c _ _ =>
      Int.le_of_lt_add_one (s.dstSample_range .one r c).2
  case clipped =>
    exact (dstSample_pred (i := .predHbd txs 0) rfl hs hk ht r c hr hc).trans
      (prediction_alpha_zero s .two r c)
  case hbd => exact pred_alpha_zero_keeps_bytes (i := .predHbd txs 0) rfl rfl hs hk ht hle

end Sys2Proof.Machine

/-! The commands as a whole: an equal compare (44_parity_comparator.md R140), the frame (20_memory.md R68), the unmapped
refusal (20_memory.md R60) and the premises of completion (70_reset_and_hazards.md R178). -/

namespace Sys2Proof.Machine

/-! ### An equal compare -/

/-- A compare of buffers whose elements have the same bytes finds no mismatch. -/
theorem exec_cmp_equal {i : Instr} {size : ElemSize} {w h : Nat} {s : State} (hi : cmpSize i = some size)
    (hs : s.halted = false) (hk : resolve i.txs = .block w h) (hA : s.Maps (s.twinA size w h))
    (hB : s.Maps (s.twinB size w h)) (heq : InBlock w h fun r c => ∀ k < size.bytes,
      s.mem.byte ((s.srcPlane size).addr r c + k) = s.mem.byte ((s.dstPlane size).addr r c + k)) :
    exec i s = .next s := by
  have hnone : s.firstMismatch size w h = none :=
    firstMismatch_none.mpr fun r c hr hc => twinsDiffer_eq_false_iff.mpr (heq r c hr hc)
  rw [exec_cmp_block hi hs hk]
  exact compareTwins_next_iff.mpr ⟨⟨hA, hB⟩, .inl ⟨hnone, rfl⟩⟩

/-- Settles O47: one byte of each element is compared by `CMP.E8`, both by `CMP.E16`. -/
theorem cmpOfEqualBuffersDoesNothing : Obligations.CmpOfEqualBuffersDoesNothing := by
  intro txs w h s hs hk
  refine ⟨fun hA hB heq => ?one, fun hA hB heq => ?two⟩
  case one =>
    refine exec_cmp_equal (i := .cmpE8 txs) (size := .one) rfl hs hk hA hB fun r c hr hc k hbyte => ?_
    obtain rfl : k = 0 := Nat.lt_one_iff.mp hbyte
    exact heq r c hr hc
  case two =>
    refine exec_cmp_equal (i := .cmpE16 txs) (size := .two) rfl hs hk hA hB fun r c hr hc k hbyte => ?_
    obtain ⟨hlow, hhigh⟩ := heq r c hr hc
    obtain rfl | rfl : k = 0 ∨ k = 1 := Nat.le_one_iff_eq_zero_or_eq_one.mp (Nat.le_of_lt_succ hbyte)
    · exact hlow
    · exact hhigh

/-! ### The frame -/

theorem exec_fields {i : Instr} {s t : State} (h : exec i s = .next t) :
    t = { s with mem := t.mem, status := t.status, finfo := t.finfo } := by
  obtain rfl | ⟨_, _, _, _, -, -, -, -, rfl⟩ | ⟨_, _, _, _, -, -, -, -, rfl⟩ := exec_next_cases h
  · rfl
  · rfl
  · rfl

/-- A command leaves the fault record, or takes `PARITY_MISMATCH` and leaves memory. -/
theorem exec_record {i : Instr} {s t : State} (h : exec i s = .next t) : (t.status = s.status ∧ t.finfo = s.finfo) ∨
    (s.halted = false ∧ t.status = 0x00000011#32 ∧ t.mem = s.mem) := by
  obtain rfl | ⟨_, _, _, _, -, -, -, -, rfl⟩ | ⟨_, _, r, c, hs, -, -, -, rfl⟩ := exec_next_cases h
  · exact .inl ⟨rfl, rfl⟩
  · exact .inl ⟨rfl, rfl⟩
  · exact .inr ⟨hs, takeFault_status s _ _, takeFault_mem s _ _⟩

theorem exec_idle {i : Instr} {s t : State} (hidle : s.halted = true ∨ resolve i.txs = .noOp)
    (h : exec i s = .next t) : t = s := by
  have hsame : exec i s = .next s := hidle.elim (exec_halted · i) (exec_noOp · s)
  cases hsame.symm.trans h
  rfl

/-- A command changes no memory, or stores into the write region it has at its size. -/
theorem exec_mem_cases {i : Instr} {s t : State} {w h : Nat} (hk : resolve i.txs = .block w h)
    (ht : exec i s = .next t) : t.mem = s.mem ∨
      ∃ x val, commandWrites i s w h = some x ∧ t.mem = x.storeAll val s.mem := by
  obtain rfl | ⟨w', h', x, val, -, hk', hw, -, rfl⟩ | ⟨_, _, r, c, -, -, -, -, rfl⟩ := exec_next_cases ht
  · exact .inl rfl
  · cases hk.symm.trans hk'
    exact .inr ⟨x, val, hw, rfl⟩
  · exact .inl (takeFault_mem s _ _)

theorem exec_mem_of_no_write {i : Instr} {s t : State} {w h : Nat} (hk : resolve i.txs = .block w h)
    (ht : exec i s = .next t) (hw : commandWrites i s w h = none) : t.mem = s.mem := by
  obtain hsame | ⟨x, val, hx, -⟩ := exec_mem_cases hk ht
  · exact hsame
  · cases hw.symm.trans hx

theorem exec_byte_other {i : Instr} {s t : State} {w h a : Nat} {x : Access} (hk : resolve i.txs = .block w h)
    (ht : exec i s = .next t) (hw : commandWrites i s w h = some x) (ha : a < 2 ^ 32) (hout : ¬ x.Touches a) :
    t.mem.byte a = s.mem.byte a := by
  obtain hsame | ⟨y, val, hy, hmem⟩ := exec_mem_cases hk ht
  · rw [hsame]
  · cases hw.symm.trans hy
    rw [hmem, Access.byte_storeAll_other ha hout]

theorem executeWord_error_fields {c : Word} {s t : State} {e : DecodeError} (he : decode c = .error e)
    (h : executeWord c s = .next t) : t = { s with status := t.status, finfo := t.finfo } := by
  cases hs : s.halted with
  | true =>
    cases (executeWord_halted hs c).symm.trans h
    rfl
  | false =>
    cases (executeWord_of_error he hs).symm.trans h
    rfl

/-- Settles O54: a command by `exec_next_cases`, a rejected word by the fault it takes. -/
theorem everyCommandKeepsItsFrame : Obligations.EveryCommandKeepsItsFrame :=
  ⟨fun _ _ _ ht => ⟨exec_fields ht, exec_record ht, fun hidle => exec_idle hidle ht,
      fun _ _ hk => ⟨exec_mem_of_no_write hk ht, fun _ hw _ ha hout => exec_byte_other hk ht hw ha hout⟩⟩,
    fun c s _ ⟨_, he⟩ ht => executeWord_error_fields he (act_command c s ▸ ht)⟩

/-! ### Unmapped regions -/

theorem compareTwins_unmapped_iff {size : ElemSize} {s : State} {w h : Nat} :
    compareTwins size s w h = .refused .unmapped ↔ ¬ (s.Maps (s.twinA size w h) ∧ s.Maps (s.twinB size w h)) := by
  have hcheck : [s.twinA size w h, s.twinB size w h].all s.mappedAll = true ↔
      s.Maps (s.twinA size w h) ∧ s.Maps (s.twinB size w h) := by simp [State.mappedAll_eq_true]
  rw [← hcheck, compareTwins]
  cases [s.twinA size w h, s.twinB size w h].all s.mappedAll with
  | false => simp
  | true => cases s.firstMismatch size w h <;> simp

/-- The regions of a command at a block of `w` by `h` (20_memory.md R57). -/
def CommandRegion (i : Instr) (s : State) (w h : Nat) (x : Access) : Prop :=
  x ∈ commandReads i s w h ∨ commandWrites i s w h = some x

/-- A command at a supported size on a running block is refused as unmapped exactly when one of its regions is not
mapped. -/
theorem exec_unmapped_iff {i : Instr} {s : State} {w h : Nat} (hs : s.halted = false)
    (hk : resolve i.txs = .block w h) :
    exec i s = .refused .unmapped ↔ ¬ ∀ x, CommandRegion i s w h x → s.Maps x := by
  obtain ⟨txs, rfl⟩ | ⟨f, size, hi⟩ | ⟨size, hi⟩ | ⟨size, hi⟩ := family_cases i
  · have hregions (x : Access) : CommandRegion (.subavg txs) s w h x ↔ x = s.q3 w h := by
      simp [CommandRegion, commandReads, commandWrites, eq_comm]
    rw [exec_subavg_block (txs := txs) hs hk, subtractMean, runWriting_unmapped_iff]
    simp [hregions]
  · obtain ⟨hw, hr⟩ := regions_subs hi s w h
    rw [exec_subs_block hi hs hk, subsample, runWriting_unmapped_iff]
    simp [CommandRegion, hw, hr, or_imp, forall_and, and_comm]
  · obtain ⟨hw, hr⟩ := regions_pred hi s w h
    rw [exec_pred_block hi hs hk, predict, runWriting_unmapped_iff]
    simp [CommandRegion, hw, hr, or_imp, forall_and, and_comm]
  · obtain ⟨hw, hr⟩ := regions_cmp hi s w h
    rw [exec_cmp_block hi hs hk, compareTwins_unmapped_iff]
    simp [CommandRegion, hw, hr]

theorem maps_of_mapped_everywhere {s : State} (hall : ∀ a, a < 2 ^ 32 → s.mapped a = true) (x : Access) : s.Maps x :=
  fun a ha => hall a ha.lt

/-- Settles O51: with memory everywhere every region is mapped; a halted block or a no-op size refuses nothing. -/
theorem unmappedRegionsAreRefused : Obligations.UnmappedRegionsAreRefused := by
  refine ⟨fun i s w h a x hs hk hx ht hmap => ?_, fun i s hall href => ?_⟩
  · refine (exec_unmapped_iff hs hk).mpr fun hmaps => ?_
    cases hmap.symm.trans (hmaps x hx a ht)
  · cases hs : s.halted with
    | true => cases (exec_halted hs i).symm.trans href
    | false =>
      cases hk : resolve i.txs with
      | noOp => cases (exec_noOp hk s).symm.trans href
      | block w h => exact (exec_unmapped_iff hs hk).mp href fun x _ => maps_of_mapped_everywhere hall x

/-! ### The premises of completion -/

/-- Settles O55, family by family; a small spread is no further case, as it makes every difference fit. -/
theorem commandsCompleteExactlyWhenReady : Obligations.CommandsCompleteExactlyWhenReady := by
  intro i s w h hs hk
  obtain ⟨txs, rfl⟩ | ⟨f, size, hi⟩ | ⟨size, hi⟩ | ⟨size, hi⟩ := family_cases i
  · have hfit : s.SpreadOk w h ∨ s.DifferencesFit w h ↔ s.DifferencesFit w h :=
      or_iff_right_of_imp (State.SpreadOk.differencesFit (area_pos hk))
    simp only [exec_subavg, execSubavg_next_iff (txs := txs) hs hk, CommandReady, hfit, exists_and_left, exists_eq,
      and_true]
  · simp only [exec_subs_next_iff hi hs hk, commandReady_subs hi, exists_and_left, exists_eq, and_true]
  · simp only [exec_pred_next_iff hi hs hk, commandReady_pred hi, exists_and_left, exists_eq, and_true]
  · rw [commandReady_cmp hi, exec_cmp_block hi hs hk]
    refine ⟨fun ⟨t, ht⟩ => (compareTwins_next_iff.mp ht).1, fun hmaps => ?_⟩
    cases hf : s.firstMismatch size w h with
    | none => exact ⟨_, compareTwins_next_iff.mpr ⟨hmaps, .inl ⟨hf, rfl⟩⟩⟩
    | some p => exact ⟨_, compareTwins_next_iff.mpr ⟨hmaps, .inr ⟨p.1, p.2, hf, rfl⟩⟩⟩

end Sys2Proof.Machine

/-! What a command depends on (40_dc_remover.md R92): two running states with the same inputs end a command the same
way. -/

namespace Sys2Proof.Machine

/-! ### The same bytes, the same samples -/

theorem Access.get_congr {x : Access} {m n : Memory} (h : ∀ a, x.Touches a → m.byte a = n.byte a) :
    InBlock x.w x.h fun r c => x.plane.get m r c = x.plane.get n r c := by
  intro r c hr hc
  refine Memory.load_congr fun k hk => ?_
  rw [← Memory.byte_wrapAddr m, ← Memory.byte_wrapAddr n]
  exact h _ ⟨r, c, k, hr, hc, hk, rfl⟩

section

variable {s s' : State} {w h : Nat}

theorem all_positions_congr {f g : Nat → Nat → Bool} (hfg : InBlock w h fun r c => f r c = g r c) :
    ((positions w h).all fun p => f p.1 p.2) = (positions w h).all fun p => g p.1 p.2 := by
  rw [Bool.eq_iff_iff, all_positions_iff, all_positions_iff]
  exact forall₄_congr fun r c hr hc => by simp only [hfg r c hr hc]

theorem q3Sample_congr (hq : s.q3 w h = s'.q3 w h)
    (hb : ∀ a, (s.q3 w h).Touches a → s.mem.byte a = s'.mem.byte a) :
    InBlock w h fun r c => s.q3Sample r c = s'.q3Sample r c := by
  intro r c hr hc
  have hplane : s.q3Plane = s'.q3Plane := congrArg Access.plane hq
  have hget : s.q3Plane.get s.mem r c = s.q3Plane.get s'.mem r c := Access.get_congr (x := s.q3 w h) hb r c hr hc
  rw [q3Sample_eq_sext, q3Sample_eq_sext, ← hplane, hget]

theorem lumaSample_congr {f : ChromaFormat} {size : ElemSize} (hl : s.luma f size w h = s'.luma f size w h)
    (hb : ∀ a, (s.luma f size w h).Touches a → s.mem.byte a = s'.mem.byte a) :
    InBlock (w <<< f.subX) (h <<< f.subY) fun y x => s.lumaSample size y x = s'.lumaSample size y x := by
  intro y x hy hx
  have hplane : s.srcPlane size = s'.srcPlane size := congrArg Access.plane hl
  have hget : (s.srcPlane size).get s.mem y x = (s.srcPlane size).get s'.mem y x :=
    Access.get_congr (x := s.luma f size w h) hb y x hy hx
  rw [State.lumaSample, State.lumaSample, ← hplane, hget]

theorem dstSample_congr {size : ElemSize} (hd : s.dst size w h = s'.dst size w h)
    (hb : ∀ a, (s.dst size w h).Touches a → s.mem.byte a = s'.mem.byte a) :
    InBlock w h fun r c => s.dstSample size r c = s'.dstSample size r c := by
  intro r c hr hc
  have hplane : s.dstPlane size = s'.dstPlane size := congrArg Access.plane hd
  have hget : (s.dstPlane size).get s.mem r c = (s.dstPlane size).get s'.mem r c :=
    Access.get_congr (x := s.dst size w h) hb r c hr hc
  rw [State.dstSample, State.dstSample, ← hplane, hget]

theorem twinsDiffer_congr {size : ElemSize} (hA : s.twinA size w h = s'.twinA size w h)
    (hB : s.twinB size w h = s'.twinB size w h)
    (hbA : ∀ a, (s.twinA size w h).Touches a → s.mem.byte a = s'.mem.byte a)
    (hbB : ∀ a, (s.twinB size w h).Touches a → s.mem.byte a = s'.mem.byte a) :
    InBlock w h fun r c => s.twinsDiffer size r c = s'.twinsDiffer size r c := by
  intro r c hr hc
  have hsrc : s.srcPlane size = s'.srcPlane size := congrArg Access.plane hA
  have hdst : s.dstPlane size = s'.dstPlane size := congrArg Access.plane hB
  have hgetA : (s.srcPlane size).get s.mem r c = (s.srcPlane size).get s'.mem r c :=
    Access.get_congr (x := s.twinA size w h) hbA r c hr hc
  have hgetB : (s.dstPlane size).get s.mem r c = (s.dstPlane size).get s'.mem r c :=
    Access.get_congr (x := s.twinB size w h) hbB r c hr hc
  rw [State.twinsDiffer, State.twinsDiffer, ← hsrc, ← hdst, hgetA, hgetB]

theorem firstMismatch_congr {size : ElemSize}
    (hdiff : InBlock w h fun r c => s.twinsDiffer size r c = s'.twinsDiffer size r c) :
    s.firstMismatch size w h = s'.firstMismatch size w h :=
  List.find?_congr (inBlock_iff.mp hdiff)

theorem mappedAll_congr (hu : s.unmapped = s'.unmapped) : s.mappedAll = s'.mappedAll := by
  have hmapped : s.mapped = s'.mapped := by
    funext a
    rw [State.mapped, State.mapped, hu]
  funext x
  rw [State.mappedAll, State.mappedAll, hmapped]

/-- `DEPTH` is an input of `PRED.HBD` alone (42_fixed_point_scaler.md R121, R122). -/
theorem pixMax_congr {i : Instr} {size : ElemSize} (hi : predSize i = some size)
    (hd : ∀ t a, i = .predHbd t a → s.depth = s'.depth) : s.pixMax size = s'.pixMax size := by
  cases i with
  | predLbd => cases hi; rfl
  | predHbd t a => cases hi; exact congrArg pixMaxHbd (hd t a rfl)
  | _ => cases hi

theorem meanOf_congr {f g : Nat → Nat → Int} (hfg : InBlock w h fun r c => f r c = g r c) :
    meanOf w h f = meanOf w h g := by
  rw [meanOf, meanOf, sumBlock_congr hfg]

end

/-! ### The same ending -/

/-- A command ends the same way at two states: in next states with the same bytes in its write region and the same news
of a fault, or refused for the same reason. -/
def SameEnding (i : Instr) (s s' : State) : Prop :=
  (∃ t t', exec i s = .next t ∧ exec i s' = .next t' ∧
    (∀ w h x a, resolve i.txs = .block w h → commandWrites i s w h = some x → x.Touches a →
      t.mem.byte a = t'.mem.byte a) ∧
    ((t.status = s.status ∧ t.finfo = s.finfo ∧ t'.status = s'.status ∧ t'.finfo = s'.finfo) ∨
      (t.status = t'.status ∧ t.finfo = t'.finfo ∧ t.halted = true))) ∨
  ∃ r, exec i s = .refused r ∧ exec i s' = .refused r

theorem Access.storeAll_congr {x : Access} {val val' : Nat → Nat → Int} {m m' : Memory} (hu : x.Unfolded)
    (hval : InBlock x.w x.h fun r c => val r c = val' r c) {a : Nat} (ha : x.Touches a) :
    (x.storeAll val m).byte a = (x.storeAll val' m').byte a := by
  obtain ⟨r, c, k, hr, hc, hk, rfl⟩ := ha
  rw [← wrapAddr_eq, Memory.byte_wrapAddr, Memory.byte_wrapAddr, Access.byte_storeAll_mem hu hr hc hk,
    Access.byte_storeAll_mem hu hr hc hk, hval r c hr hc]

section

variable {i : Instr} {s s' : State} {w h : Nat}

/-- Two writing kernels with the same checks, storing the same values in one unfolded region, end the same way. -/
theorem sameEnding_of_runWriting {out : Access} {others : List Access} {ov ok : Bool} {val val' : Nat → Nat → Int}
    (hk : resolve i.txs = .block w h) (hw : commandWrites i s w h = some out) (hu : s.unmapped = s'.unmapped)
    (hs : exec i s = runWriting s out others ov ok val) (hs' : exec i s' = runWriting s' out others ov ok val')
    (hfold : ov = false → out.Unfolded) (hval : InBlock out.w out.h fun r c => val r c = val' r c) :
    SameEnding i s s' := by
  rw [runWriting] at hs hs'
  rw [← mappedAll_congr hu] at hs'
  cases hmap : (out :: others).all s.mappedAll with
  | false =>
    simp only [hmap, Bool.not_false, if_true] at hs hs'
    exact .inr ⟨_, hs, hs'⟩
  | true =>
    simp only [hmap, Bool.not_true, Bool.false_eq_true, if_false] at hs hs'
    cases ov with
    | true => exact .inr ⟨_, hs, hs'⟩
    | false =>
      cases ok with
      | false => exact .inr ⟨_, hs, hs'⟩
      | true =>
        refine .inl ⟨_, _, hs, hs', fun w' h' x a hk' hx ha => ?_, .inl ⟨rfl, rfl, rfl, rfl⟩⟩
        cases hk.symm.trans hk'
        cases hw.symm.trans hx
        exact Access.storeAll_congr (hfold rfl) hval ha

theorem sameEnding_subavg {txs : Nat} (hs : s.halted = false) (hs' : s'.halted = false)
    (hk : resolve txs = .block w h) (hin : SameInputs (.subavg txs) s s') : SameEnding (.subavg txs) s s' := by
  obtain ⟨hu, -, hblock⟩ := hin
  obtain ⟨hreads, -, hbytes⟩ := hblock w h hk
  have hq : s.q3 w h = s'.q3 w h := List.singleton_inj.mp hreads
  have hsample := q3Sample_congr hq (hbytes _ List.mem_cons_self)
  have havg : s.q3Avg w h = s'.q3Avg w h := by
    rw [State.q3Avg_eq_meanOf hk, State.q3Avg_eq_meanOf hk, meanOf_congr hsample]
  have hval : InBlock w h fun r c => s.q3Sample r c - s.q3Avg w h = s'.q3Sample r c - s'.q3Avg w h :=
    fun r c hr hc => by simp only [havg, hsample r c hr hc]
  have hfits : InBlock w h fun r c =>
      fitsQ3 (s.q3Sample r c - s.q3Avg w h) = fitsQ3 (s'.q3Sample r c - s'.q3Avg w h) :=
    fun r c hr hc => congrArg fitsQ3 (hval r c hr hc)
  have hok := all_positions_congr hfits
  obtain ⟨-, hw, -, hh⟩ := resolve_le hk
  have hrun := exec_subavg_block hs hk
  have hrun' := exec_subavg_block hs' hk
  rw [subtractMean] at hrun hrun'
  rw [← hq, ← hok] at hrun'
  exact sameEnding_of_runWriting hk rfl hu hrun hrun' (fun _ => s.q3_unfolded hw hh) hval

theorem sameEnding_subs {f : ChromaFormat} {size : ElemSize} (hi : subsForm i = some (f, size))
    (hs : s.halted = false) (hs' : s'.halted = false) (hk : resolve i.txs = .block w h) (hin : SameInputs i s s') :
    SameEnding i s s' := by
  obtain ⟨hu, -, hblock⟩ := hin
  obtain ⟨hreads, hwrites, hbytes⟩ := hblock w h hk
  obtain ⟨hw, hr⟩ := regions_subs hi s w h
  obtain ⟨hw', hr'⟩ := regions_subs hi s' w h
  rw [hr] at hbytes
  have hl : s.luma f size w h = s'.luma f size w h := List.singleton_inj.mp (hr.symm.trans (hreads.trans hr'))
  have hq : s.q3 w h = s'.q3 w h := Option.some.inj (hw.symm.trans (hwrites.trans hw'))
  have hsample := lumaSample_congr hl (hbytes _ List.mem_cons_self)
  have hok : s.lumaCheck f size w h = s'.lumaCheck f size w h := by
    rw [Bool.eq_iff_iff, State.lumaCheck_iff, State.lumaCheck_iff]
    refine forall_congr' fun htwo => ?_
    subst htwo
    exact forall₄_congr fun y x hy hx => by simp only [hsample y x hy hx]
  obtain ⟨-, hwide, -, hhigh⟩ := resolve_le hk
  have hrun := exec_subs_block hi hs hk
  have hrun' := exec_subs_block hi hs' hk
  rw [subsample] at hrun hrun'
  rw [← hq, ← hl, ← hok] at hrun'
  exact sameEnding_of_runWriting hk hw hu hrun hrun' (fun _ => s.q3_unfolded hwide hhigh) (subsampled_congr hsample)

theorem sameEnding_pred {size : ElemSize} (hi : predSize i = some size) (hs : s.halted = false)
    (hs' : s'.halted = false) (hk : resolve i.txs = .block w h) (hin : SameInputs i s s') : SameEnding i s s' := by
  obtain ⟨hu, hdepth, hblock⟩ := hin
  obtain ⟨hreads, -, hbytes⟩ := hblock w h hk
  obtain ⟨hw, hr⟩ := regions_pred hi s w h
  obtain ⟨-, hr'⟩ := regions_pred hi s' w h
  rw [hr, hr'] at hreads
  rw [hr] at hbytes
  simp only [List.cons.injEq, and_true] at hreads
  obtain ⟨hq, hd⟩ := hreads
  have hq3 := q3Sample_congr hq (hbytes _ List.mem_cons_self)
  have hdst := dstSample_congr hd (hbytes _ (List.mem_cons_of_mem _ List.mem_cons_self))
  have hval : InBlock w h fun r c => predicted (s.pixMax size) i.alpha (s.q3Sample r c) (s.dstSample size r c) =
      predicted (s'.pixMax size) i.alpha (s'.q3Sample r c) (s'.dstSample size r c) :=
    fun r c hr hc => by simp only [pixMax_congr hi hdepth, hq3 r c hr hc, hdst r c hr hc]
  have hrun := exec_pred_block hi hs hk
  have hrun' := exec_pred_block hi hs' hk
  rw [predict] at hrun hrun'
  rw [← hq, ← hd] at hrun'
  refine sameEnding_of_runWriting hk hw hu hrun hrun' (fun hov => ?_) hval
  exact Access.folds_eq_false.mp (Bool.or_eq_false_iff.mp hov).2

/-- Two compares of the same regions with the same first mismatch end the same way. -/
theorem sameEnding_of_compareTwins {size : ElemSize} (hk : resolve i.txs = .block w h)
    (hw : commandWrites i s w h = none) (hu : s.unmapped = s'.unmapped) (hs : exec i s = compareTwins size s w h)
    (hs' : exec i s' = compareTwins size s' w h) (hA : s.twinA size w h = s'.twinA size w h)
    (hB : s.twinB size w h = s'.twinB size w h) (hfirst : s.firstMismatch size w h = s'.firstMismatch size w h) :
    SameEnding i s s' := by
  have hnowrite (t t' : State) : ∀ w h x a, resolve i.txs = .block w h → commandWrites i s w h = some x →
      x.Touches a → t.mem.byte a = t'.mem.byte a := by
    intro w' h' x a hk' hx
    cases hk.symm.trans hk'
    cases hw.symm.trans hx
  rw [compareTwins] at hs hs'
  rw [← hA, ← hB, ← mappedAll_congr hu, ← hfirst] at hs'
  cases hmap : [s.twinA size w h, s.twinB size w h].all s.mappedAll with
  | false =>
    simp only [hmap, Bool.not_false, if_true] at hs hs'
    exact .inr ⟨_, hs, hs'⟩
  | true =>
    simp only [hmap, Bool.not_true, Bool.false_eq_true, if_false] at hs hs'
    cases hf : s.firstMismatch size w h with
    | none =>
      rw [hf] at hs hs'
      exact .inl ⟨s, s', hs, hs', hnowrite s s', .inl ⟨rfl, rfl, rfl, rfl⟩⟩
    | some p =>
      rw [hf] at hs hs'
      exact .inl ⟨_, _, hs, hs', hnowrite _ _, .inr ⟨rfl, rfl, takeFault_halted s _ _⟩⟩

theorem sameEnding_cmp {size : ElemSize} (hi : cmpSize i = some size) (hs : s.halted = false)
    (hs' : s'.halted = false) (hk : resolve i.txs = .block w h) (hin : SameInputs i s s') : SameEnding i s s' := by
  obtain ⟨hu, -, hblock⟩ := hin
  obtain ⟨hreads, -, hbytes⟩ := hblock w h hk
  obtain ⟨hw, hr⟩ := regions_cmp hi s w h
  obtain ⟨-, hr'⟩ := regions_cmp hi s' w h
  rw [hr, hr'] at hreads
  rw [hr] at hbytes
  simp only [List.cons.injEq, and_true] at hreads
  obtain ⟨hA, hB⟩ := hreads
  have hdiff := twinsDiffer_congr hA hB (hbytes _ List.mem_cons_self)
    (hbytes _ (List.mem_cons_of_mem _ List.mem_cons_self))
  exact sameEnding_of_compareTwins hk hw hu (exec_cmp_block hi hs hk) (exec_cmp_block hi hs' hk) hA hB
    (firstMismatch_congr hdiff)

theorem sameEnding_noOp (hno : resolve i.txs = .noOp) (s s' : State) : SameEnding i s s' :=
  .inl ⟨s, s', exec_noOp hno s, exec_noOp hno s', fun _ _ _ _ hk => (by cases hno.symm.trans hk),
    .inl ⟨rfl, rfl, rfl, rfl⟩⟩

/-- A command on two running states with the same inputs ends the same way. -/
theorem sameEnding_of_sameInputs (hs : s.halted = false) (hs' : s'.halted = false) (hin : SameInputs i s s') :
    SameEnding i s s' := by
  cases hk : resolve i.txs with
  | noOp => exact sameEnding_noOp hk s s'
  | block w h =>
    obtain ⟨txs, rfl⟩ | ⟨f, size, hi⟩ | ⟨size, hi⟩ | ⟨size, hi⟩ := family_cases i
    · exact sameEnding_subavg hs hs' hk hin
    · exact sameEnding_subs hi hs hs' hk hin
    · exact sameEnding_pred hi hs hs' hk hin
    · exact sameEnding_cmp hi hs hs' hk hin

end

/-- Settles O56: `SameEnding` holds in every case, and its two cases are the statement's. -/
theorem commandsReadOnlyTheirInputs : Obligations.CommandsReadOnlyTheirInputs := by
  intro i s s' hs hs' hin
  obtain ⟨t, t', ht, ht', hending⟩ | ⟨r, hr, hr'⟩ := sameEnding_of_sameInputs hs hs' hin
  · rw [ht, ht']
    exact hending
  · rw [hr, hr']

end Sys2Proof.Machine
